-- ==== Sys2Proof/Word.lean ====
section
/-! DEFINITION. The two widths of the hardware: 8-bit data and 16-bit addresses and pairs (00_scope.md R4, R5). -/

namespace Sys2Proof

/-- An 8-bit byte: a register half or a memory cell (R5). -/
abbrev Byte := BitVec 8

/-- A 16-bit word: a register pair, `SP`, `PC` or an address; its arithmetic wraps modulo 65536 (R5, R65). -/
abbrev Word := BitVec 16

end Sys2Proof
end

