-- ==== Sys2Proof/Config.lean ====
section
/-! DEFINITION. What is fixed for the machine (00_scope.md R4). Nothing here is a free value: no instruction of
this hardware has an undefined result. -/

namespace Sys2Proof.Config

/-- The byte that selects the extended page (R4, R87). -/
def extendedPrefix : Byte := 0xCB

/-- The memory has exactly this many cells, at addresses 0x0000 to 0xFFFF (R4, R19). -/
def memorySize : Nat := 65536

/-- What a memory cell that the memory list does not name reads as.
DESIGN CHOICE (log entry 1): unsafe for a claim about `State.reset` that leans on the value 0x00. The content of the memory at the first
step is the parameter `MEM_INIT` (92_eei_decisions.md D13); every image is a value of `Memory` whatever this byte is. -/
def unlistedByte : Byte := 0x00

end Sys2Proof.Config
end

