-- ==== Sys2Proof/Syntax.lean ====
section
/-! DEFINITION. The syntax of the machine: the register names an instruction selects, and the ONE type of
instructions, one constructor for every instruction row of spec/opcode_table.json and one per page for its UNIMPL rows. -/

namespace Sys2Proof

/-- The seven registers of the 8-bit selector table `r8` (30_encoding.md R82). `F` is not among them. -/
inductive R8 where
  | a | b | c | d | e | h | l
deriving DecidableEq, Repr

/-- The four registers of the 16-bit selector table `rp` (30_encoding.md R83). `AF` and `PC` are not among them. -/
inductive Rp where
  | bc | de | hl | sp
deriving DecidableEq, Repr

/-- The instructions (00_scope.md R7, 30_encoding.md R85, R86). The two `unimpl` constructors stand for the table's
UNIMPL rows: a byte of the primary or of the extended page with no assigned semantics (R89; log entry 4). -/
inductive Instr where
  /-- LD BC,d16 (R121). -/
  | ldBcD16 (imm : Word)
  /-- LD DE,d16 (R122). -/
  | ldDeD16 (imm : Word)
  /-- LD HL,d16 (R123). -/
  | ldHlD16 (imm : Word)
  /-- LD SP,d16 (R124). -/
  | ldSpD16 (imm : Word)
  /-- LD B,d8 (R131). -/
  | ldBD8 (imm : Byte)
  /-- LD C,d8 (R132). -/
  | ldCD8 (imm : Byte)
  /-- LD D,d8 (R133). -/
  | ldDD8 (imm : Byte)
  /-- LD E,d8 (R134). -/
  | ldED8 (imm : Byte)
  /-- LD H,d8 (R135). -/
  | ldHD8 (imm : Byte)
  /-- LD L,d8 (R136). -/
  | ldLD8 (imm : Byte)
  /-- LD A,d8 (R137). -/
  | ldAD8 (imm : Byte)
  /-- LD (HL+),A (R141). -/
  | ldHliA
  /-- LD (HL-),A (R142). -/
  | ldHldA
  /-- XOR B (R151). -/
  | xorB
  /-- XOR C (R152). -/
  | xorC
  /-- XOR D (R153). -/
  | xorD
  /-- XOR E (R154). -/
  | xorE
  /-- XOR H (R155). -/
  | xorH
  /-- XOR L (R156). -/
  | xorL
  /-- XOR A (R157). -/
  | xorA
  /- BIT b,B for b = 0 to 7 (R161). -/
  | bit0B | bit1B | bit2B | bit3B | bit4B | bit5B | bit6B | bit7B
  /- BIT b,C for b = 0 to 7 (R162). -/
  | bit0C | bit1C | bit2C | bit3C | bit4C | bit5C | bit6C | bit7C
  /- BIT b,D for b = 0 to 7 (R163). -/
  | bit0D | bit1D | bit2D | bit3D | bit4D | bit5D | bit6D | bit7D
  /- BIT b,E for b = 0 to 7 (R164). -/
  | bit0E | bit1E | bit2E | bit3E | bit4E | bit5E | bit6E | bit7E
  /- BIT b,H for b = 0 to 7 (R165). -/
  | bit0H | bit1H | bit2H | bit3H | bit4H | bit5H | bit6H | bit7H
  /- BIT b,L for b = 0 to 7 (R166). -/
  | bit0L | bit1L | bit2L | bit3L | bit4L | bit5L | bit6L | bit7L
  /- BIT b,A for b = 0 to 7 (R167). -/
  | bit0A | bit1A | bit2A | bit3A | bit4A | bit5A | bit6A | bit7A
  /-- A primary opcode with no assigned semantics (R89, R171). -/
  | unimplPrimary (op : Byte)
  /-- An extended opcode, the byte after 0xCB, with no assigned semantics (R89, R171). -/
  | unimplExtended (op : Byte)
deriving DecidableEq, Repr

end Sys2Proof
end

