-- ==== Sys2Proof/WellFormed.lean ====
section
/-! DEFINITION. Which terms of `Instr` are instructions of this hardware. Every value of an immediate is legal
(41_ld_rp_d16.md R120, 42_ld_r_d8.md R130); an `unimpl` term must carry a byte that has no assigned semantics on its page. -/

namespace Sys2Proof

/-- The twenty primary opcodes with semantics, as 30_encoding.md R85 lists them. -/
def assignedPrimary : List Byte :=
  [0x01, 0x06, 0x0E, 0x11, 0x16, 0x1E, 0x21, 0x22, 0x26, 0x2E] ++
  [0x31, 0x32, 0x3E, 0xA8, 0xA9, 0xAA, 0xAB, 0xAC, 0xAD, 0xAF]

/-- The extended opcodes with semantics: 0x40 to 0x7F less the eight whose low three bits are 6 (30_encoding.md R86). -/
def assignedExtended (op : Byte) : Bool :=
  decide (0x40 ≤ op.toNat) && decide (op.toNat ≤ 0x7F) && decide (op.toNat % 8 ≠ 6)

/-- The check on one instruction: an unassigned primary byte is neither an instruction nor the prefix, an unassigned
extended byte is no BIT (30_encoding.md R89, R87). -/
def Instr.wf : Instr → Bool
  | .unimplPrimary op => !assignedPrimary.contains op && op != Config.extendedPrefix
  | .unimplExtended op => !assignedExtended op
  | _ => true

end Sys2Proof
end

