-- ==== Sys2Proof/Decode.lean ====
section
/-! DEFINITION. The instruction decoder (11_blocks_and_interfaces.md R44): the bit fields, the two selector tables, the
two classification functions, the decoder over bytes; then the encoder, written from the opcode pages and not from the decoder. -/

namespace Sys2Proof

/-! Bytes and words. -/

/-- The word whose high byte is `hi` and low byte `lo`: `lo | (hi << 8)` (00_scope.md R5, 20_memory.md R61). -/
def joinBytes (hi lo : Byte) : Word := hi ++ lo

/-- Bits 15..8 of a word (10_state.md R11). -/
def hiByte (w : Word) : Byte := w.extractLsb' 8 8

/-- Bits 7..0 of a word (10_state.md R11). -/
def loByte (w : Word) : Byte := w.extractLsb' 0 8

/-! The bit fields of an opcode byte. -/

/-- The classification keys `x y z p q` of an opcode byte (30_encoding.md R81). -/
structure Fields where
  x : BitVec 2
  y : BitVec 3
  z : BitVec 3
  p : BitVec 2
  q : BitVec 1
deriving DecidableEq, Repr

/-- `decode(b)` of the spec's notation: the split of any byte into its fields (30_encoding.md R81). -/
def fieldsOf (b : Byte) : Fields where
  x := b.extractLsb' 6 2
  y := b.extractLsb' 3 3
  z := b.extractLsb' 0 3
  p := b.extractLsb' 4 2
  q := b.extractLsb' 3 1

/-! The selector tables. -/

/-- The 8-bit selector table `r8`; index 6 selects nothing (30_encoding.md R82). -/
def r8Selected (i : BitVec 3) : Option R8 :=
  match i with
  | 0 => some .b
  | 1 => some .c
  | 2 => some .d
  | 3 => some .e
  | 4 => some .h
  | 5 => some .l
  | 6 => none
  | 7 => some .a

/-- The 16-bit selector table `rp` (30_encoding.md R83). -/
def rpSelected (p : BitVec 2) : Rp :=
  match p with
  | 0 => .bc
  | 1 => .de
  | 2 => .hl
  | 3 => .sp

/-! Classification. -/

/-- What a primary opcode other than the prefix is, with its selected operand (35_step_cycle.md R104). -/
inductive PrimaryClass where
  | ldRpD16 (r : Rp)
  | ldRD8 (r : R8)
  | stHli
  | stHld
  | xorR (r : R8)
  | unassigned
deriving DecidableEq, Repr

/-- What an extended opcode is, with its selected operands (35_step_cycle.md R104). -/
inductive ExtendedClass where
  | bit (b : BitVec 3) (r : R8)
  | unassigned
deriving DecidableEq, Repr

/-- `classify_primary` (35_step_cycle.md R104): total; the bytes with selector 6 select no register and are unassigned. -/
def classifyPrimary (op : Byte) : PrimaryClass :=
  let f := fieldsOf op
  if f.x = 0 ∧ f.z = 1 ∧ f.q = 0 then .ldRpD16 (rpSelected f.p)
  else if f.x = 0 ∧ f.z = 2 ∧ f.q = 0 ∧ f.p = 2 then .stHli
  else if f.x = 0 ∧ f.z = 2 ∧ f.q = 0 ∧ f.p = 3 then .stHld
  else if f.x = 0 ∧ f.z = 6 then
    match r8Selected f.y with
    | some r => .ldRD8 r
    | none => .unassigned
  else if f.x = 2 ∧ f.y = 5 then
    match r8Selected f.z with
    | some r => .xorR r
    | none => .unassigned
  else .unassigned

/-- `classify_extended` (35_step_cycle.md R104). -/
def classifyExtended (op : Byte) : ExtendedClass :=
  let f := fieldsOf op
  if f.x = 1 then
    match r8Selected f.z with
    | some r => .bit f.y r
    | none => .unassigned
  else .unassigned

/-! From a class to an instruction. -/

/-- The member of the LD rp,d16 family with destination `r` (30_encoding.md R92). -/
def ldRpInstr (r : Rp) (imm : Word) : Instr :=
  match r with
  | .bc => .ldBcD16 imm
  | .de => .ldDeD16 imm
  | .hl => .ldHlD16 imm
  | .sp => .ldSpD16 imm

/-- The member of the LD r,d8 family with destination `r` (30_encoding.md R92). -/
def ldRInstr (r : R8) (imm : Byte) : Instr :=
  match r with
  | .b => .ldBD8 imm
  | .c => .ldCD8 imm
  | .d => .ldDD8 imm
  | .e => .ldED8 imm
  | .h => .ldHD8 imm
  | .l => .ldLD8 imm
  | .a => .ldAD8 imm

/-- The member of the XOR r family with source `r` (30_encoding.md R92). -/
def xorInstr (r : R8) : Instr :=
  match r with
  | .b => .xorB
  | .c => .xorC
  | .d => .xorD
  | .e => .xorE
  | .h => .xorH
  | .l => .xorL
  | .a => .xorA

/-- The one of eight that a 3-bit index names. -/
def oneOfEight (n : BitVec 3) (i0 i1 i2 i3 i4 i5 i6 i7 : Instr) : Instr :=
  match n with
  | 0 => i0
  | 1 => i1
  | 2 => i2
  | 3 => i3
  | 4 => i4
  | 5 => i5
  | 6 => i6
  | 7 => i7

/-- The member of the BIT b,r family with bit index `n` and tested register `r` (30_encoding.md R92). -/
def bitInstr (n : BitVec 3) (r : R8) : Instr :=
  match r with
  | .b => oneOfEight n .bit0B .bit1B .bit2B .bit3B .bit4B .bit5B .bit6B .bit7B
  | .c => oneOfEight n .bit0C .bit1C .bit2C .bit3C .bit4C .bit5C .bit6C .bit7C
  | .d => oneOfEight n .bit0D .bit1D .bit2D .bit3D .bit4D .bit5D .bit6D .bit7D
  | .e => oneOfEight n .bit0E .bit1E .bit2E .bit3E .bit4E .bit5E .bit6E .bit7E
  | .h => oneOfEight n .bit0H .bit1H .bit2H .bit3H .bit4H .bit5H .bit6H .bit7H
  | .l => oneOfEight n .bit0L .bit1L .bit2L .bit3L .bit4L .bit5L .bit6L .bit7L
  | .a => oneOfEight n .bit0A .bit1A .bit2A .bit3A .bit4A .bit5A .bit6A .bit7A

/-! The decoder. -/

/-- The instruction that starts with the primary opcode `op` (not the prefix); `b1` and `b2` are the bytes after it, of
which only an immediate's are looked at (30_encoding.md R80, R84). -/
def decodePrimary (op b1 b2 : Byte) : Instr :=
  match classifyPrimary op with
  | .ldRpD16 r => ldRpInstr r (joinBytes b2 b1)
  | .ldRD8 r => ldRInstr r b1
  | .stHli => .ldHliA
  | .stHld => .ldHldA
  | .xorR r => xorInstr r
  | .unassigned => .unimplPrimary op

/-- The instruction whose extended opcode is `op` (30_encoding.md R86). -/
def decodeExtended (op : Byte) : Instr :=
  match classifyExtended op with
  | .bit n r => bitInstr n r
  | .unassigned => .unimplExtended op

/-- The instruction at three successive bytes: total, since every byte value of either page has an outcome; after the
prefix the second byte is decoded on the extended page, and the prefix does not stack (30_encoding.md R87, R89). -/
def decodeBytes (b0 b1 b2 : Byte) : Instr :=
  if b0 = Config.extendedPrefix then decodeExtended b1 else decodePrimary b0 b1 b2

/-- The length in bytes of the instruction whose first byte is `b` (30_encoding.md R88). -/
def lengthOfFirstByte (b : Byte) : Nat :=
  if b ∈ ([0x01, 0x11, 0x21, 0x31] : List Byte) then 3
  else if b ∈ ([0x06, 0x0E, 0x16, 0x1E, 0x26, 0x2E, 0x3E, 0xCB] : List Byte) then 2
  else 1

/-- Why a list of bytes decodes to nothing: it ends inside an instruction. No byte VALUE is ever rejected (R89). -/
inductive DecodeError where
  /-- There is no byte at all. -/
  | noOpcode
  /-- The prefix 0xCB is the last byte. -/
  | noExtendedOpcode
  /-- The immediate of an LD is cut off. -/
  | noImmediate
deriving DecidableEq, Repr

/-- The decoder over any list of bytes: the instruction at its head and the bytes after it, or why there is none. -/
def decode (bs : List Byte) : Except DecodeError (Instr × List Byte) :=
  match bs with
  | [] => .error .noOpcode
  | b0 :: rest =>
    match lengthOfFirstByte b0, rest with
    | 1, rest => .ok (decodeBytes b0 0 0, rest)
    | 2, b1 :: rest => .ok (decodeBytes b0 b1 0, rest)
    | 3, b1 :: b2 :: rest => .ok (decodeBytes b0 b1 b2, rest)
    | _, _ => .error (if b0 = Config.extendedPrefix then .noExtendedOpcode else .noImmediate)

/-! The encoder, from the opcode pages of 30_encoding.md (R85, R86) and the BIT lists of 45_bit.md (R161 to R167). -/

/-- The bytes of an instruction in ascending address order; a d16 has its low byte first (30_encoding.md R80, R84). -/
def encode : Instr → List Byte
  | .ldBcD16 imm => [0x01, loByte imm, hiByte imm]
  | .ldDeD16 imm => [0x11, loByte imm, hiByte imm]
  | .ldHlD16 imm => [0x21, loByte imm, hiByte imm]
  | .ldSpD16 imm => [0x31, loByte imm, hiByte imm]
  | .ldBD8 imm => [0x06, imm]
  | .ldCD8 imm => [0x0E, imm]
  | .ldDD8 imm => [0x16, imm]
  | .ldED8 imm => [0x1E, imm]
  | .ldHD8 imm => [0x26, imm]
  | .ldLD8 imm => [0x2E, imm]
  | .ldAD8 imm => [0x3E, imm]
  | .ldHliA => [0x22]
  | .ldHldA => [0x32]
  | .xorB => [0xA8]
  | .xorC => [0xA9]
  | .xorD => [0xAA]
  | .xorE => [0xAB]
  | .xorH => [0xAC]
  | .xorL => [0xAD]
  | .xorA => [0xAF]
  | .bit0B => [0xCB, 0x40]
  | .bit1B => [0xCB, 0x48]
  | .bit2B => [0xCB, 0x50]
  | .bit3B => [0xCB, 0x58]
  | .bit4B => [0xCB, 0x60]
  | .bit5B => [0xCB, 0x68]
  | .bit6B => [0xCB, 0x70]
  | .bit7B => [0xCB, 0x78]
  | .bit0C => [0xCB, 0x41]
  | .bit1C => [0xCB, 0x49]
  | .bit2C => [0xCB, 0x51]
  | .bit3C => [0xCB, 0x59]
  | .bit4C => [0xCB, 0x61]
  | .bit5C => [0xCB, 0x69]
  | .bit6C => [0xCB, 0x71]
  | .bit7C => [0xCB, 0x79]
  | .bit0D => [0xCB, 0x42]
  | .bit1D => [0xCB, 0x4A]
  | .bit2D => [0xCB, 0x52]
  | .bit3D => [0xCB, 0x5A]
  | .bit4D => [0xCB, 0x62]
  | .bit5D => [0xCB, 0x6A]
  | .bit6D => [0xCB, 0x72]
  | .bit7D => [0xCB, 0x7A]
  | .bit0E => [0xCB, 0x43]
  | .bit1E => [0xCB, 0x4B]
  | .bit2E => [0xCB, 0x53]
  | .bit3E => [0xCB, 0x5B]
  | .bit4E => [0xCB, 0x63]
  | .bit5E => [0xCB, 0x6B]
  | .bit6E => [0xCB, 0x73]
  | .bit7E => [0xCB, 0x7B]
  | .bit0H => [0xCB, 0x44]
  | .bit1H => [0xCB, 0x4C]
  | .bit2H => [0xCB, 0x54]
  | .bit3H => [0xCB, 0x5C]
  | .bit4H => [0xCB, 0x64]
  | .bit5H => [0xCB, 0x6C]
  | .bit6H => [0xCB, 0x74]
  | .bit7H => [0xCB, 0x7C]
  | .bit0L => [0xCB, 0x45]
  | .bit1L => [0xCB, 0x4D]
  | .bit2L => [0xCB, 0x55]
  | .bit3L => [0xCB, 0x5D]
  | .bit4L => [0xCB, 0x65]
  | .bit5L => [0xCB, 0x6D]
  | .bit6L => [0xCB, 0x75]
  | .bit7L => [0xCB, 0x7D]
  | .bit0A => [0xCB, 0x47]
  | .bit1A => [0xCB, 0x4F]
  | .bit2A => [0xCB, 0x57]
  | .bit3A => [0xCB, 0x5F]
  | .bit4A => [0xCB, 0x67]
  | .bit5A => [0xCB, 0x6F]
  | .bit6A => [0xCB, 0x77]
  | .bit7A => [0xCB, 0x7F]
  | .unimplPrimary op => [op]
  | .unimplExtended op => [0xCB, op]

/-- The bytes the step consumes for an instruction (30_encoding.md R80, R88). -/
def Instr.length (i : Instr) : Nat := (encode i).length

/-! The opcode table's numbering of an instruction's bits. -/

/-- The three bytes, in ascending address order, of the `nbits`-bit number `w` of spec/opcode_table.json, zeros above it.
The first byte is bits 7..0 and the next one bits 15..8, but in a 16-bit row the table numbers the first byte, 0xCB, as
bits 15..8 (30_encoding.md R93). DEDUCED (log entry 10): safe. -/
def tableBytes (nbits w : Nat) : Byte × Byte × Byte :=
  let v := w % 2 ^ nbits
  let byte (k : Nat) : Byte := BitVec.ofNat 8 (v / 2 ^ (8 * k))
  if nbits = 16 ∧ byte 1 = Config.extendedPrefix then (byte 1, byte 0, 0)
  else (byte 0, byte 1, byte 2)

/-- The instruction the decoder reads from the table's number `w` of `nbits` bits. -/
def decodeTableWord (nbits w : Nat) : Option Instr :=
  match tableBytes nbits w with
  | (b0, b1, b2) =>
    match decode [b0, b1, b2] with
    | .ok (i, _) => some i
    | .error _ => none

end Sys2Proof
end

