-- ==== Sys2Proof/Machine/State.lean ====
section
/-! DEFINITION. The state of the machine, as plain data: the core's registers (10_state.md R10), the memory it is lent
(10_state.md R19), and beside them the result of the latest step (11_blocks_and_interfaces.md R42). -/

namespace Sys2Proof.Machine

/-- The page of an opcode byte (60_exceptions.md R172). -/
inductive Page where
  | primary
  | extended
deriving DecidableEq, Repr

/-- The two results of a step (11_blocks_and_interfaces.md R42) and the payload of the second (60_exceptions.md R172). -/
inductive StepResult where
  | ok
  | unimplementedOpcode (byte : Byte) (addr : Word) (page : Page)
deriving DecidableEq, Repr

/-- The names of the four flags (10_state.md R13). -/
inductive Flag where
  | z | n | h | c
deriving DecidableEq, Repr

/-- The storage of `F`: its four flag bits. Bits 3..0 are hardwired to zero and have no storage (10_state.md R12,
92_eei_decisions.md D17). DEDUCED (log entry 5): safe. -/
structure Flags where
  z : Bool
  n : Bool
  h : Bool
  c : Bool
deriving DecidableEq, Repr

/-- The 16-bit registers of the register file (11_blocks_and_interfaces.md R45). -/
inductive Pair where
  | af | bc | de | hl | sp | pc
deriving DecidableEq, Repr

/-- The memory: the cells whose byte is not `Config.unlistedByte`, by strictly rising address (`Memory.wf`). -/
abbrev Memory := List Host.Cell

/-- The whole state. -/
structure State where
  /-- The accumulator, high half of `AF` (R11). -/
  a : Byte
  /-- `F`, low half of `AF`, as its four flags (R12, R13). -/
  flags : Flags
  b : Byte
  c : Byte
  d : Byte
  e : Byte
  h : Byte
  l : Byte
  /-- The stack pointer (R16). -/
  sp : Word
  /-- The program counter (R17). -/
  pc : Word
  /-- The host's memory, lent for each step (R19). -/
  mem : Memory
  /-- The result the latest step returned to the host; none when no step has returned since reset. The MODEL's own
  field, outside the core's state: no step reads it. DESIGN CHOICE (log entry 2): safe. -/
  report : Option StepResult
deriving DecidableEq, Repr

/-- Why a step stops with a fault. No constructor: no instruction with semantics can fail, an unassigned opcode is
reported as data and the core goes on, and MemoryBoundsViolation cannot occur (60_exceptions.md R170, R173, R175, R178).
DEDUCED (log entry 9): nothing raises one; safe. -/
inductive Fault where
deriving DecidableEq, Repr

/-- Why a step refuses an instruction. -/
inductive Refusal where
  /-- The instruction has no meaning in the model yet; raised by `exec` alone, and by no arm of it: safe. -/
  | notModelled (mnemonic : String)
deriving DecidableEq, Repr

/-- The machine right after `reset()`: every register zero (10_state.md R24, 70_reset_and_hazards.md R190), no memory
cell listed (log entry 1), no step result yet (log entry 2). -/
def State.reset : State where
  a := 0
  flags := ⟨false, false, false, false⟩
  b := 0
  c := 0
  d := 0
  e := 0
  h := 0
  l := 0
  sp := 0
  pc := 0
  mem := []
  report := none

end Sys2Proof.Machine
end

