-- ==== Sys2Proof/Machine/Flags.lean ====
section
/-! DEFINITION. The block alu_flags (11_blocks_and_interfaces.md R46): the byte view of `F`, access to one flag, and
every flag computation of the hardware. -/

namespace Sys2Proof.Machine

/-- `F` as a byte: Z, N, H, C in bits 7, 6, 5, 4, zeros below (10_state.md R12, R13). -/
def flagsToByte (f : Flags) : Byte :=
  BitVec.ofBool f.z ++ BitVec.ofBool f.n ++ BitVec.ofBool f.h ++ BitVec.ofBool f.c ++ (0 : BitVec 4)

/-- What a write of the byte `v` to `F` stores: its bits 7..4; bits 3..0 are discarded (10_state.md R12). -/
def flagsOfByte (v : Byte) : Flags where
  z := v.getLsbD 7
  n := v.getLsbD 6
  h := v.getLsbD 5
  c := v.getLsbD 4

/-- `test_flag(f)` (R46, 10_state.md R13). -/
def testFlag (f : Flag) (fs : Flags) : Bool :=
  match f with
  | .z => fs.z
  | .n => fs.n
  | .h => fs.h
  | .c => fs.c

/-- One flag takes the value `v`, the other three keep theirs (10_state.md R13). -/
def putFlag (f : Flag) (v : Bool) (fs : Flags) : Flags :=
  match f with
  | .z => { fs with z := v }
  | .n => { fs with n := v }
  | .h => { fs with h := v }
  | .c => { fs with c := v }

/-- `set_flag(f)` (R46). -/
def setFlag (f : Flag) (fs : Flags) : Flags := putFlag f true fs

/-- `reset_flag(f)` (R46). -/
def resetFlag (f : Flag) (fs : Flags) : Flags := putFlag f false fs

/-- `xor8(a, b)` (R46). -/
def xor8 (x y : Byte) : Byte := x ^^^ y

/-- The flags of `xor8`: Z computed from the result, N, H and C cleared (R46, 44_xor.md R150). -/
def xorFlags (x y : Byte) : Flags where
  z := xor8 x y == 0
  n := false
  h := false
  c := false

/-- The flags of `bit_test(n, v)`: Z set when bit `n` of `v` is 0, N cleared, H set, C kept (R46, 45_bit.md R160). -/
def bitTestFlags (n : BitVec 3) (v : Byte) (before : Flags) : Flags where
  z := !v.getLsbD n.toNat
  n := false
  h := true
  c := before.c

end Sys2Proof.Machine
end

