-- ==== Sys2Proof/Machine/Ops.lean ====
section
/-! DEFINITION. The named operations over memory and registers, the end of a step, the report of an unassigned opcode
(the hardware's one exception), and what the host may do between steps. -/

namespace Sys2Proof.Machine

/-! The memory list. -/

/-- The byte at the address `a`. -/
def Memory.lookup (m : Memory) (a : Nat) : Byte :=
  match m with
  | [] => Config.unlistedByte
  | (k, v) :: rest => if k = a then v else Memory.lookup rest a

/-- The list with the byte at `a` become `v`: rising addresses stay rising, and writing the unlisted byte drops the entry. -/
def Memory.store (m : Memory) (a : Nat) (v : Byte) : Memory :=
  match m with
  | [] => if v = Config.unlistedByte then [] else [(a, v)]
  | (k, w) :: rest =>
    if a < k then (if v = Config.unlistedByte then (k, w) :: rest else (a, v) :: (k, w) :: rest)
    else if a = k then (if v = Config.unlistedByte then rest else (a, v) :: rest)
    else (k, w) :: Memory.store rest a v

/-- The canonical form from the address `lo` on: rising addresses inside the memory, no entry equal to the unlisted byte. -/
def Memory.wfFrom (lo : Nat) (m : Memory) : Bool :=
  match m with
  | [] => true
  | (k, v) :: rest =>
    decide (lo ≤ k) && decide (k < Config.memorySize) && (v != Config.unlistedByte) && Memory.wfFrom (k + 1) rest

/-- The canonical form: each content of the 65536 cells (10_state.md R19) is exactly one such list. -/
def Memory.wf (m : Memory) : Bool := Memory.wfFrom 0 m

/-- `MemRead(addr, 1)`: no side effect, no failure (00_scope.md R6, 20_memory.md R60). -/
def memRead (m : Memory) (a : Word) : Byte := Memory.lookup m a.toNat

/-- `MemWrite(addr, 1, v)`: every cell is writable (00_scope.md R6, 20_memory.md R64). -/
def memWrite (m : Memory) (a : Word) (v : Byte) : Memory := Memory.store m a.toNat v

/-- The cells of `image` below `n`, put before `above`. -/
def imageCells (image : Word → Byte) (n : Nat) (above : Memory) : Memory :=
  match n with
  | 0 => above
  | k + 1 =>
    let v := image (BitVec.ofNat 16 k)
    imageCells image k (if v = Config.unlistedByte then above else (k, v) :: above)

/-- The memory that holds a whole image, the parameter `MEM_INIT : address -> byte` (00_scope.md R4, 92_eei_decisions.md D13). Irreducible, so
that no proof unfolds its 65536 cells. -/
@[irreducible] def memoryOfImage (image : Word → Byte) : Memory := imageCells image Config.memorySize []

/-! The register file (11_blocks_and_interfaces.md R45). -/

/-- `read8`. -/
def read8 (r : R8) (s : State) : Byte :=
  match r with
  | .a => s.a
  | .b => s.b
  | .c => s.c
  | .d => s.d
  | .e => s.e
  | .h => s.h
  | .l => s.l

/-- `write8`: the other half of the pair keeps its value (10_state.md R26). -/
def write8 (r : R8) (v : Byte) (s : State) : State :=
  match r with
  | .a => { s with a := v }
  | .b => { s with b := v }
  | .c => { s with c := v }
  | .d => { s with d := v }
  | .e => { s with e := v }
  | .h => { s with h := v }
  | .l => { s with l := v }

/-- `read8(F)`: bits 3..0 read as zero (10_state.md R12). -/
def readF (s : State) : Byte := flagsToByte s.flags

/-- `write8(F, v)`: bits 3..0 of `v` are discarded (10_state.md R12). -/
def writeF (v : Byte) (s : State) : State := { s with flags := flagsOfByte v }

/-- `read16`: a pair is its two halves (10_state.md R11). -/
def read16 (r : Pair) (s : State) : Word :=
  match r with
  | .af => joinBytes s.a (readF s)
  | .bc => joinBytes s.b s.c
  | .de => joinBytes s.d s.e
  | .hl => joinBytes s.h s.l
  | .sp => s.sp
  | .pc => s.pc

/-- `write16`: both halves are written together; a write of `AF` stores `v & 0xFFF0` (R45, 10_state.md R12, R26). -/
def write16 (r : Pair) (v : Word) (s : State) : State :=
  match r with
  | .af => { s with a := hiByte v, flags := flagsOfByte (loByte v) }
  | .bc => { s with b := hiByte v, c := loByte v }
  | .de => { s with d := hiByte v, e := loByte v }
  | .hl => { s with h := hiByte v, l := loByte v }
  | .sp => { s with sp := v }
  | .pc => { s with pc := v }

/-! The end of a step. -/

/-- The step of an instruction with semantics ends: `PC` has moved past the `n` bytes of the instruction and the result
is `Ok` (10_state.md R18, 11_blocks_and_interfaces.md R42). `PC` moves here and not at each byte read: the two orders
give the same state (35_step_cycle.md R105; log entry 7). -/
def complete (n : Word) (s : State) : State := { s with pc := s.pc + n, report := some .ok }

/-- Taking the hardware's one exception: the step ends with `UnimplementedOpcode(byte, addr, page)` and only `PC` has
moved, past the opcode (primary) or past the prefix and the extended opcode (60_exceptions.md R171, R172, R176). There
is no saved state and no handler, and so nothing for a return to restore (R177): the next step runs at the new `PC`. -/
def reportUnimplemented (page : Page) (byte : Byte) (s : State) : State :=
  let addr := match page with
    | .primary => s.pc
    | .extended => s.pc + 1
  { s with pc := addr + 1, report := some (.unimplementedOpcode byte addr page) }

/-! What the host does between steps (11_blocks_and_interfaces.md R49). DESIGN CHOICE (log entry 8): functions on states, no
steps of the machine; unsafe for a claim about several steps that leaves the host out. -/

/-- `reset()`: every register becomes zero, the memory is not touched; it has no result (70_reset_and_hazards.md R190). -/
def resetCore (s : State) : State := { State.reset with mem := s.mem }

/-- The host changes one byte of its memory (R49 (b)). -/
def hostPoke (a : Word) (v : Byte) (s : State) : State := { s with mem := memWrite s.mem a v }

/-- The host lends another memory (R49 (b), 20_memory.md R72). -/
def withMemory (m : Memory) (s : State) : State := { s with mem := m }

/-- The state a run starts in: the memory holds the host's image and the core is reset (70_reset_and_hazards.md
R192). What the registers hold before the first reset is left open (R193; log entry 6). -/
def launch (image : Word → Byte) : State := withMemory (memoryOfImage image) State.reset

end Sys2Proof.Machine
end

