-- ==== Sys2Proof/Machine/Operands.lean ====
section
/-! DEFINITION. Every operand form of the hardware: a register of the `r8` and `rp` tables, the immediates as the step
reads them from the instruction stream, and the byte at `HL` that the two stores write
(30_encoding.md R82 to R84, R92; 11_blocks_and_interfaces.md R43, R47, R48). -/

namespace Sys2Proof.Machine

/-- The 16-bit register a member of the `rp` table is (30_encoding.md R83). -/
def rpPair (r : Rp) : Pair :=
  match r with
  | .bc => .bc
  | .de => .de
  | .hl => .hl
  | .sp => .sp

/-- The byte `k` places after `PC`, modulo 65536 (20_memory.md R65). -/
def fetchAt (k : Word) (s : State) : Byte := memRead s.mem (s.pc + k)

/-- `inc16` (R48). -/
def inc16 (v : Word) : Word := v + 1

/-- `FetchByte()`: the byte at `PC`, and the state with `PC` one further (R43). -/
def fetchByte (s : State) : Byte × State := (memRead s.mem s.pc, { s with pc := inc16 s.pc })

/-- `ReadImm8()` (R47). -/
def readImm8 (s : State) : Byte × State := fetchByte s

/-- `ReadImm16()`: the low byte first (R47, R61). -/
def readImm16 (s : State) : Word × State :=
  let lo := readImm8 s
  let hi := readImm8 lo.2
  (joinBytes hi.1 lo.1, hi.2)

/-- The address the two stores write: the value `HL` has before its adjustment (43_st_hl_postmod.md R140). -/
def storeAddress (s : State) : Word := read16 .hl s

/-- `StoreA_HL(delta)`: the store, then the adjustment of `HL` modulo 65536; no flag is touched (R47). -/
def storeAtHl (delta : Word) (s : State) : State :=
  write16 .hl (read16 .hl s + delta) { s with mem := memWrite s.mem (storeAddress s) s.a }

end Sys2Proof.Machine
end

