-- ==== Sys2Proof/Machine/Bit.lean ====
section
/-! DEFINITION. BIT b,r (45_bit.md). -/

namespace Sys2Proof.Machine

/-- BIT b,r: only the flags are written, C is kept, 2 bytes (R160). -/
def bitTest (n : BitVec 3) (r : R8) (s : State) : State :=
  complete 2 { s with flags := bitTestFlags n (read8 r s) s.flags }

/-! BIT b,B for b = 0 to 7 (R161). -/

/-- BIT 0,B. -/
def execBit0B (s : State) : Host.Outcome State Fault Refusal := .next (bitTest 0 .b s)
/-- BIT 1,B. -/
def execBit1B (s : State) : Host.Outcome State Fault Refusal := .next (bitTest 1 .b s)
/-- BIT 2,B. -/
def execBit2B (s : State) : Host.Outcome State Fault Refusal := .next (bitTest 2 .b s)
/-- BIT 3,B. -/
def execBit3B (s : State) : Host.Outcome State Fault Refusal := .next (bitTest 3 .b s)
/-- BIT 4,B. -/
def execBit4B (s : State) : Host.Outcome State Fault Refusal := .next (bitTest 4 .b s)
/-- BIT 5,B. -/
def execBit5B (s : State) : Host.Outcome State Fault Refusal := .next (bitTest 5 .b s)
/-- BIT 6,B. -/
def execBit6B (s : State) : Host.Outcome State Fault Refusal := .next (bitTest 6 .b s)
/-- BIT 7,B. -/
def execBit7B (s : State) : Host.Outcome State Fault Refusal := .next (bitTest 7 .b s)

/-! BIT b,C for b = 0 to 7 (R162). -/

/-- BIT 0,C. -/
def execBit0C (s : State) : Host.Outcome State Fault Refusal := .next (bitTest 0 .c s)
/-- BIT 1,C. -/
def execBit1C (s : State) : Host.Outcome State Fault Refusal := .next (bitTest 1 .c s)
/-- BIT 2,C. -/
def execBit2C (s : State) : Host.Outcome State Fault Refusal := .next (bitTest 2 .c s)
/-- BIT 3,C. -/
def execBit3C (s : State) : Host.Outcome State Fault Refusal := .next (bitTest 3 .c s)
/-- BIT 4,C. -/
def execBit4C (s : State) : Host.Outcome State Fault Refusal := .next (bitTest 4 .c s)
/-- BIT 5,C. -/
def execBit5C (s : State) : Host.Outcome State Fault Refusal := .next (bitTest 5 .c s)
/-- BIT 6,C. -/
def execBit6C (s : State) : Host.Outcome State Fault Refusal := .next (bitTest 6 .c s)
/-- BIT 7,C. -/
def execBit7C (s : State) : Host.Outcome State Fault Refusal := .next (bitTest 7 .c s)

/-! BIT b,D for b = 0 to 7 (R163). -/

/-- BIT 0,D. -/
def execBit0D (s : State) : Host.Outcome State Fault Refusal := .next (bitTest 0 .d s)
/-- BIT 1,D. -/
def execBit1D (s : State) : Host.Outcome State Fault Refusal := .next (bitTest 1 .d s)
/-- BIT 2,D. -/
def execBit2D (s : State) : Host.Outcome State Fault Refusal := .next (bitTest 2 .d s)
/-- BIT 3,D. -/
def execBit3D (s : State) : Host.Outcome State Fault Refusal := .next (bitTest 3 .d s)
/-- BIT 4,D. -/
def execBit4D (s : State) : Host.Outcome State Fault Refusal := .next (bitTest 4 .d s)
/-- BIT 5,D. -/
def execBit5D (s : State) : Host.Outcome State Fault Refusal := .next (bitTest 5 .d s)
/-- BIT 6,D. -/
def execBit6D (s : State) : Host.Outcome State Fault Refusal := .next (bitTest 6 .d s)
/-- BIT 7,D. -/
def execBit7D (s : State) : Host.Outcome State Fault Refusal := .next (bitTest 7 .d s)

/-! BIT b,E for b = 0 to 7 (R164). -/

/-- BIT 0,E. -/
def execBit0E (s : State) : Host.Outcome State Fault Refusal := .next (bitTest 0 .e s)
/-- BIT 1,E. -/
def execBit1E (s : State) : Host.Outcome State Fault Refusal := .next (bitTest 1 .e s)
/-- BIT 2,E. -/
def execBit2E (s : State) : Host.Outcome State Fault Refusal := .next (bitTest 2 .e s)
/-- BIT 3,E. -/
def execBit3E (s : State) : Host.Outcome State Fault Refusal := .next (bitTest 3 .e s)
/-- BIT 4,E. -/
def execBit4E (s : State) : Host.Outcome State Fault Refusal := .next (bitTest 4 .e s)
/-- BIT 5,E. -/
def execBit5E (s : State) : Host.Outcome State Fault Refusal := .next (bitTest 5 .e s)
/-- BIT 6,E. -/
def execBit6E (s : State) : Host.Outcome State Fault Refusal := .next (bitTest 6 .e s)
/-- BIT 7,E. -/
def execBit7E (s : State) : Host.Outcome State Fault Refusal := .next (bitTest 7 .e s)

/-! BIT b,H for b = 0 to 7 (R165). -/

/-- BIT 0,H. -/
def execBit0H (s : State) : Host.Outcome State Fault Refusal := .next (bitTest 0 .h s)
/-- BIT 1,H. -/
def execBit1H (s : State) : Host.Outcome State Fault Refusal := .next (bitTest 1 .h s)
/-- BIT 2,H. -/
def execBit2H (s : State) : Host.Outcome State Fault Refusal := .next (bitTest 2 .h s)
/-- BIT 3,H. -/
def execBit3H (s : State) : Host.Outcome State Fault Refusal := .next (bitTest 3 .h s)
/-- BIT 4,H. -/
def execBit4H (s : State) : Host.Outcome State Fault Refusal := .next (bitTest 4 .h s)
/-- BIT 5,H. -/
def execBit5H (s : State) : Host.Outcome State Fault Refusal := .next (bitTest 5 .h s)
/-- BIT 6,H. -/
def execBit6H (s : State) : Host.Outcome State Fault Refusal := .next (bitTest 6 .h s)
/-- BIT 7,H. -/
def execBit7H (s : State) : Host.Outcome State Fault Refusal := .next (bitTest 7 .h s)

/-! BIT b,L for b = 0 to 7 (R166). -/

/-- BIT 0,L. -/
def execBit0L (s : State) : Host.Outcome State Fault Refusal := .next (bitTest 0 .l s)
/-- BIT 1,L. -/
def execBit1L (s : State) : Host.Outcome State Fault Refusal := .next (bitTest 1 .l s)
/-- BIT 2,L. -/
def execBit2L (s : State) : Host.Outcome State Fault Refusal := .next (bitTest 2 .l s)
/-- BIT 3,L. -/
def execBit3L (s : State) : Host.Outcome State Fault Refusal := .next (bitTest 3 .l s)
/-- BIT 4,L. -/
def execBit4L (s : State) : Host.Outcome State Fault Refusal := .next (bitTest 4 .l s)
/-- BIT 5,L. -/
def execBit5L (s : State) : Host.Outcome State Fault Refusal := .next (bitTest 5 .l s)
/-- BIT 6,L. -/
def execBit6L (s : State) : Host.Outcome State Fault Refusal := .next (bitTest 6 .l s)
/-- BIT 7,L. -/
def execBit7L (s : State) : Host.Outcome State Fault Refusal := .next (bitTest 7 .l s)

/-! BIT b,A for b = 0 to 7 (R167). -/

/-- BIT 0,A. -/
def execBit0A (s : State) : Host.Outcome State Fault Refusal := .next (bitTest 0 .a s)
/-- BIT 1,A. -/
def execBit1A (s : State) : Host.Outcome State Fault Refusal := .next (bitTest 1 .a s)
/-- BIT 2,A. -/
def execBit2A (s : State) : Host.Outcome State Fault Refusal := .next (bitTest 2 .a s)
/-- BIT 3,A. -/
def execBit3A (s : State) : Host.Outcome State Fault Refusal := .next (bitTest 3 .a s)
/-- BIT 4,A. -/
def execBit4A (s : State) : Host.Outcome State Fault Refusal := .next (bitTest 4 .a s)
/-- BIT 5,A. -/
def execBit5A (s : State) : Host.Outcome State Fault Refusal := .next (bitTest 5 .a s)
/-- BIT 6,A. -/
def execBit6A (s : State) : Host.Outcome State Fault Refusal := .next (bitTest 6 .a s)
/-- BIT 7,A. -/
def execBit7A (s : State) : Host.Outcome State Fault Refusal := .next (bitTest 7 .a s)

end Sys2Proof.Machine
end

