-- ==== Sys2Proof/Machine/LoadHalf.lean ====
section
/-! DEFINITION. LD r,d8 (42_ld_r_d8.md). -/

namespace Sys2Proof.Machine

/-- LD r,d8: the register takes the immediate, no flag changes, 2 bytes (R130). -/
def loadHalf (r : R8) (imm : Byte) (s : State) : State := complete 2 (write8 r imm s)

/-- LD B,d8 (R131). -/
def execLdBD8 (imm : Byte) (s : State) : Host.Outcome State Fault Refusal := .next (loadHalf .b imm s)

/-- LD C,d8 (R132). -/
def execLdCD8 (imm : Byte) (s : State) : Host.Outcome State Fault Refusal := .next (loadHalf .c imm s)

/-- LD D,d8 (R133). -/
def execLdDD8 (imm : Byte) (s : State) : Host.Outcome State Fault Refusal := .next (loadHalf .d imm s)

/-- LD E,d8 (R134). -/
def execLdED8 (imm : Byte) (s : State) : Host.Outcome State Fault Refusal := .next (loadHalf .e imm s)

/-- LD H,d8 (R135). -/
def execLdHD8 (imm : Byte) (s : State) : Host.Outcome State Fault Refusal := .next (loadHalf .h imm s)

/-- LD L,d8 (R136). -/
def execLdLD8 (imm : Byte) (s : State) : Host.Outcome State Fault Refusal := .next (loadHalf .l imm s)

/-- LD A,d8 (R137). -/
def execLdAD8 (imm : Byte) (s : State) : Host.Outcome State Fault Refusal := .next (loadHalf .a imm s)

end Sys2Proof.Machine
end

