-- ==== Sys2Proof/Machine/LoadPair.lean ====
section
/-! DEFINITION. LD rp,d16 (41_ld_rp_d16.md). -/

namespace Sys2Proof.Machine

/-- LD rp,d16: the pair takes the immediate, no flag changes, 3 bytes (R120). -/
def loadPair (r : Rp) (imm : Word) (s : State) : State := complete 3 (write16 (rpPair r) imm s)

/-- LD BC,d16 (R121). -/
def execLdBcD16 (imm : Word) (s : State) : Host.Outcome State Fault Refusal := .next (loadPair .bc imm s)

/-- LD DE,d16 (R122). -/
def execLdDeD16 (imm : Word) (s : State) : Host.Outcome State Fault Refusal := .next (loadPair .de imm s)

/-- LD HL,d16 (R123). -/
def execLdHlD16 (imm : Word) (s : State) : Host.Outcome State Fault Refusal := .next (loadPair .hl imm s)

/-- LD SP,d16 (R124). -/
def execLdSpD16 (imm : Word) (s : State) : Host.Outcome State Fault Refusal := .next (loadPair .sp imm s)

end Sys2Proof.Machine
end

