-- ==== Sys2Proof/Machine/StorePostModify.lean ====
section
/-! DEFINITION. LD (HL+),A and LD (HL-),A (43_st_hl_postmod.md). -/

namespace Sys2Proof.Machine

/-- The two stores: `A` at the address in `HL`, then `HL` moves by `delta`, no flag changes, 1 byte (R140). -/
def storePostModify (delta : Word) (s : State) : State := complete 1 (storeAtHl delta s)

/-- LD (HL+),A (R141). -/
def execLdHliA (s : State) : Host.Outcome State Fault Refusal := .next (storePostModify 1 s)

/-- LD (HL-),A (R142): minus one modulo 65536. -/
def execLdHldA (s : State) : Host.Outcome State Fault Refusal := .next (storePostModify (-1) s)

end Sys2Proof.Machine
end

