-- ==== Sys2Proof/Machine/Unimpl.lean ====
section
/-! DEFINITION. The opcodes with no assigned semantics (60_exceptions.md R171). -/

namespace Sys2Proof.Machine

/-- An unassigned primary opcode: reported, only `PC` moves, by 1 (R171, R172). The report names the byte as it stands
in the instruction, without asking again whether it is unassigned (`Instr.wf`; log entry 4). -/
def execUnimplPrimary (op : Byte) (s : State) : Host.Outcome State Fault Refusal := .next (reportUnimplemented .primary op s)

/-- An unassigned extended opcode: reported, only `PC` moves, by 2 (R171, R172). -/
def execUnimplExtended (op : Byte) (s : State) : Host.Outcome State Fault Refusal := .next (reportUnimplemented .extended op s)

end Sys2Proof.Machine
end

