-- ==== Sys2Proof/Machine/Xor.lean ====
section
/-! DEFINITION. XOR r (44_xor.md). -/

namespace Sys2Proof.Machine

/-- XOR r: `A` takes `A ^ r8[z]`, all four flags are written, 1 byte (R150). -/
def xorWith (r : R8) (s : State) : State :=
  complete 1 { s with a := xor8 s.a (read8 r s), flags := xorFlags s.a (read8 r s) }

/-- XOR B (R151). -/
def execXorB (s : State) : Host.Outcome State Fault Refusal := .next (xorWith .b s)

/-- XOR C (R152). -/
def execXorC (s : State) : Host.Outcome State Fault Refusal := .next (xorWith .c s)

/-- XOR D (R153). -/
def execXorD (s : State) : Host.Outcome State Fault Refusal := .next (xorWith .d s)

/-- XOR E (R154). -/
def execXorE (s : State) : Host.Outcome State Fault Refusal := .next (xorWith .e s)

/-- XOR H (R155). -/
def execXorH (s : State) : Host.Outcome State Fault Refusal := .next (xorWith .h s)

/-- XOR L (R156). -/
def execXorL (s : State) : Host.Outcome State Fault Refusal := .next (xorWith .l s)

/-- XOR A (R157). -/
def execXorA (s : State) : Host.Outcome State Fault Refusal := .next (xorWith .a s)

end Sys2Proof.Machine
end

