-- ==== Sys2Proof/Machine/Dispatch.lean ====
section
/-! DEFINITION. The dispatch: one arm per instruction, each one call of its meaning. -/

namespace Sys2Proof.Machine

def exec (i : Instr) (s : State) : Host.Outcome State Fault Refusal :=
  match i with
  -- LD rp,d16
  | .ldBcD16 imm => Sys2Proof.Machine.execLdBcD16 imm s
  | .ldDeD16 imm => Sys2Proof.Machine.execLdDeD16 imm s
  | .ldHlD16 imm => Sys2Proof.Machine.execLdHlD16 imm s
  | .ldSpD16 imm => Sys2Proof.Machine.execLdSpD16 imm s
  -- LD r,d8
  | .ldBD8 imm => Sys2Proof.Machine.execLdBD8 imm s
  | .ldCD8 imm => Sys2Proof.Machine.execLdCD8 imm s
  | .ldDD8 imm => Sys2Proof.Machine.execLdDD8 imm s
  | .ldED8 imm => Sys2Proof.Machine.execLdED8 imm s
  | .ldHD8 imm => Sys2Proof.Machine.execLdHD8 imm s
  | .ldLD8 imm => Sys2Proof.Machine.execLdLD8 imm s
  | .ldAD8 imm => Sys2Proof.Machine.execLdAD8 imm s
  -- the stores
  | .ldHliA => Sys2Proof.Machine.execLdHliA s
  | .ldHldA => Sys2Proof.Machine.execLdHldA s
  -- XOR r
  | .xorB => Sys2Proof.Machine.execXorB s
  | .xorC => Sys2Proof.Machine.execXorC s
  | .xorD => Sys2Proof.Machine.execXorD s
  | .xorE => Sys2Proof.Machine.execXorE s
  | .xorH => Sys2Proof.Machine.execXorH s
  | .xorL => Sys2Proof.Machine.execXorL s
  | .xorA => Sys2Proof.Machine.execXorA s
  -- BIT b,r
  | .bit0B => Sys2Proof.Machine.execBit0B s
  | .bit1B => Sys2Proof.Machine.execBit1B s
  | .bit2B => Sys2Proof.Machine.execBit2B s
  | .bit3B => Sys2Proof.Machine.execBit3B s
  | .bit4B => Sys2Proof.Machine.execBit4B s
  | .bit5B => Sys2Proof.Machine.execBit5B s
  | .bit6B => Sys2Proof.Machine.execBit6B s
  | .bit7B => Sys2Proof.Machine.execBit7B s
  | .bit0C => Sys2Proof.Machine.execBit0C s
  | .bit1C => Sys2Proof.Machine.execBit1C s
  | .bit2C => Sys2Proof.Machine.execBit2C s
  | .bit3C => Sys2Proof.Machine.execBit3C s
  | .bit4C => Sys2Proof.Machine.execBit4C s
  | .bit5C => Sys2Proof.Machine.execBit5C s
  | .bit6C => Sys2Proof.Machine.execBit6C s
  | .bit7C => Sys2Proof.Machine.execBit7C s
  | .bit0D => Sys2Proof.Machine.execBit0D s
  | .bit1D => Sys2Proof.Machine.execBit1D s
  | .bit2D => Sys2Proof.Machine.execBit2D s
  | .bit3D => Sys2Proof.Machine.execBit3D s
  | .bit4D => Sys2Proof.Machine.execBit4D s
  | .bit5D => Sys2Proof.Machine.execBit5D s
  | .bit6D => Sys2Proof.Machine.execBit6D s
  | .bit7D => Sys2Proof.Machine.execBit7D s
  | .bit0E => Sys2Proof.Machine.execBit0E s
  | .bit1E => Sys2Proof.Machine.execBit1E s
  | .bit2E => Sys2Proof.Machine.execBit2E s
  | .bit3E => Sys2Proof.Machine.execBit3E s
  | .bit4E => Sys2Proof.Machine.execBit4E s
  | .bit5E => Sys2Proof.Machine.execBit5E s
  | .bit6E => Sys2Proof.Machine.execBit6E s
  | .bit7E => Sys2Proof.Machine.execBit7E s
  | .bit0H => Sys2Proof.Machine.execBit0H s
  | .bit1H => Sys2Proof.Machine.execBit1H s
  | .bit2H => Sys2Proof.Machine.execBit2H s
  | .bit3H => Sys2Proof.Machine.execBit3H s
  | .bit4H => Sys2Proof.Machine.execBit4H s
  | .bit5H => Sys2Proof.Machine.execBit5H s
  | .bit6H => Sys2Proof.Machine.execBit6H s
  | .bit7H => Sys2Proof.Machine.execBit7H s
  | .bit0L => Sys2Proof.Machine.execBit0L s
  | .bit1L => Sys2Proof.Machine.execBit1L s
  | .bit2L => Sys2Proof.Machine.execBit2L s
  | .bit3L => Sys2Proof.Machine.execBit3L s
  | .bit4L => Sys2Proof.Machine.execBit4L s
  | .bit5L => Sys2Proof.Machine.execBit5L s
  | .bit6L => Sys2Proof.Machine.execBit6L s
  | .bit7L => Sys2Proof.Machine.execBit7L s
  | .bit0A => Sys2Proof.Machine.execBit0A s
  | .bit1A => Sys2Proof.Machine.execBit1A s
  | .bit2A => Sys2Proof.Machine.execBit2A s
  | .bit3A => Sys2Proof.Machine.execBit3A s
  | .bit4A => Sys2Proof.Machine.execBit4A s
  | .bit5A => Sys2Proof.Machine.execBit5A s
  | .bit6A => Sys2Proof.Machine.execBit6A s
  | .bit7A => Sys2Proof.Machine.execBit7A s
  -- no assigned semantics
  | .unimplPrimary op => Sys2Proof.Machine.execUnimplPrimary op s
  | .unimplExtended op => Sys2Proof.Machine.execUnimplExtended op s

end Sys2Proof.Machine
end

