-- ==== Sys2Proof/Machine/Fetch.lean ====
section
/-! DEFINITION. Fetching and decoding the instruction at `PC` (11_blocks_and_interfaces.md R43, R44). -/

namespace Sys2Proof.Machine

/-- The instruction at `PC`. It depends on the bytes of that instruction alone; the others are not looked at, and a read
has no side effect (20_memory.md R60, R63). -/
def fetchInstr (s : State) : Instr := decodeBytes (fetchAt 0 s) (fetchAt 1 s) (fetchAt 2 s)

/-- The bytes of the instruction at `PC`, as many as its first byte says (30_encoding.md R88). -/
def fetchBytes (s : State) : List Byte :=
  (List.range (lengthOfFirstByte (fetchAt 0 s))).map fun k => fetchAt (BitVec.ofNat 16 k) s

/-- The three bytes of the opcode table's number `w` stored at `PC` and after it. -/
def storeTableWord (nbits w : Nat) (s : State) : State :=
  match tableBytes nbits w with
  | (b0, b1, b2) =>
    { s with mem := memWrite (memWrite (memWrite s.mem s.pc b0) (s.pc + 1) b1) (s.pc + 2) b2 }

end Sys2Proof.Machine
end

