-- ==== Sys2Proof/Machine/Step.lean ====
section
/-! DEFINITION. One step (35_step_cycle.md R101, R102): fetch and decode the instruction at `PC`, then execute it. -/

namespace Sys2Proof.Machine

/-- The core's `step` on the memory in the state: exactly one instruction, or the report that its opcode has no
semantics (R102). -/
def step (s : State) : Host.Outcome State Fault Refusal := exec (fetchInstr s) s

/-- `step(memory)` on the memory the host lends for this step (11_blocks_and_interfaces.md R41, 20_memory.md R72). -/
def stepOn (m : Memory) (s : State) : Host.Outcome State Fault Refusal := step (withMemory m s)

/-- The state with the opcode table's number `w` of `nbits` bits stored at `PC`, where the next step fetches. A program
comes to run by the host's loading it so (70_reset_and_hazards.md R192; log entry 10). -/
def State.withFetchWord (s : State) (nbits w : Nat) : State := storeTableWord nbits w s

end Sys2Proof.Machine
end

