-- ==== Sys2Proof/Machine/Pseudocode.lean ====
section
/-! DEFINITION. The step as the spec's pseudocode writes it (35_step_cycle.md R101): `PC` moves at every byte read, the
registers are selected by the fields, and `F` is written as a byte. It is no part of `step`: it is what `step` is
compared with (R105 says the two orders of effects give the same state). -/

namespace Sys2Proof.Machine

/-- The pseudocode of R120, entered after the opcode fetch. -/
def pseudoLdRp (r : Rp) (s : State) : State :=
  let imm := readImm16 s
  write16 (rpPair r) imm.1 imm.2

/-- The pseudocode of R130, entered after the opcode fetch. -/
def pseudoLdR (r : R8) (s : State) : State :=
  let imm := readImm8 s
  write8 r imm.1 imm.2

/-- The pseudocode of R150. -/
def pseudoXor (r : R8) (s : State) : State :=
  let t := write8 .a (s.a ^^^ read8 r s) s
  writeF (if t.a = 0x00 then 0x80 else 0x00) t

/-- The pseudocode of R160: `F <- ((1 - t) << 7) | 0x20 | (F & 0x10)`. -/
def pseudoBit (n : BitVec 3) (r : R8) (s : State) : State :=
  let t : Byte := (read8 r s >>> n.toNat) &&& 1
  writeF (((1 - t) <<< 7) ||| 0x20 ||| (readF s &&& 0x10)) s

/-- The result of the step is returned to the host. -/
def returning (r : StepResult) (s : State) : State := { s with report := some r }

/-- `step(memory)`, complete (R101). -/
def pseudoStep (s : State) : State :=
  let a0 := s.pc
  let (op, s1) := fetchByte s
  if op = 0xCB then
    let a1 := s1.pc
    let (op2, s2) := fetchByte s1
    match classifyExtended op2 with
    | .bit n r => returning .ok (pseudoBit n r s2)
    | .unassigned => returning (.unimplementedOpcode op2 a1 .extended) s2
  else
    match classifyPrimary op with
    | .ldRpD16 r => returning .ok (pseudoLdRp r s1)
    | .ldRD8 r => returning .ok (pseudoLdR r s1)
    | .stHli => returning .ok (storeAtHl 1 s1)
    | .stHld => returning .ok (storeAtHl (-1) s1)
    | .xorR r => returning .ok (pseudoXor r s1)
    | .unassigned => returning (.unimplementedOpcode op a0 .primary) s1

end Sys2Proof.Machine
end

