-- ==== Sys2Proof/Safety.lean ====
section
/-! DEFINITION. The terms the statements are made in: the invariant of the machine's states, which instruction is of
which family, and which registers each instruction may read and write (10_state.md R25). -/

namespace Sys2Proof.Machine

/-- The invariant: the memory list has its canonical form. A state outside it is no state of the machine, whatever it
holds elsewhere (the four low bits of `F` have no storage, 10_state.md R27). -/
def StateInv (s : State) : Prop := s.mem.wf = true

/-- The family of an instruction and the registers its encoding selects (00_scope.md R7, 30_encoding.md R92). -/
inductive Family where
  | loadPair (r : Rp)
  | loadHalf (r : R8)
  | store
  | xor (r : R8)
  | bitTest (r : R8)
  | unassigned
deriving DecidableEq, Repr

/-- The family of each instruction, constructor by constructor. -/
def familyOf : Instr → Family
  | .ldBcD16 _ => .loadPair .bc
  | .ldDeD16 _ => .loadPair .de
  | .ldHlD16 _ => .loadPair .hl
  | .ldSpD16 _ => .loadPair .sp
  | .ldBD8 _ => .loadHalf .b
  | .ldCD8 _ => .loadHalf .c
  | .ldDD8 _ => .loadHalf .d
  | .ldED8 _ => .loadHalf .e
  | .ldHD8 _ => .loadHalf .h
  | .ldLD8 _ => .loadHalf .l
  | .ldAD8 _ => .loadHalf .a
  | .ldHliA | .ldHldA => .store
  | .xorB => .xor .b
  | .xorC => .xor .c
  | .xorD => .xor .d
  | .xorE => .xor .e
  | .xorH => .xor .h
  | .xorL => .xor .l
  | .xorA => .xor .a
  | .bit0B | .bit1B | .bit2B | .bit3B | .bit4B | .bit5B | .bit6B | .bit7B => .bitTest .b
  | .bit0C | .bit1C | .bit2C | .bit3C | .bit4C | .bit5C | .bit6C | .bit7C => .bitTest .c
  | .bit0D | .bit1D | .bit2D | .bit3D | .bit4D | .bit5D | .bit6D | .bit7D => .bitTest .d
  | .bit0E | .bit1E | .bit2E | .bit3E | .bit4E | .bit5E | .bit6E | .bit7E => .bitTest .e
  | .bit0H | .bit1H | .bit2H | .bit3H | .bit4H | .bit5H | .bit6H | .bit7H => .bitTest .h
  | .bit0L | .bit1L | .bit2L | .bit3L | .bit4L | .bit5L | .bit6L | .bit7L => .bitTest .l
  | .bit0A | .bit1A | .bit2A | .bit3A | .bit4A | .bit5A | .bit6A | .bit7A => .bitTest .a
  | .unimplPrimary _ | .unimplExtended _ => .unassigned

/-- The registers of the core other than `PC`, which every step reads and writes (10_state.md R25). -/
inductive CoreReg where
  | half (r : R8)
  | f
  | sp
deriving DecidableEq, Repr

/-- The value of a register, zero-extended to 16 bits. -/
def readReg (r : CoreReg) (s : State) : Word :=
  match r with
  | .half r => joinBytes 0 (read8 r s)
  | .f => joinBytes 0 (readF s)
  | .sp => s.sp

/-- The state with a register replaced; a half takes the low byte. -/
def setReg (r : CoreReg) (v : Word) (s : State) : State :=
  match r with
  | .half r => write8 r (loByte v) s
  | .f => writeF (loByte v) s
  | .sp => { s with sp := v }

/-- The registers an instruction reads, from the column 'read by' of 10_state.md R25. -/
def regsRead (i : Instr) : List CoreReg :=
  match familyOf i with
  | .loadPair _ => []
  | .loadHalf _ => []
  | .store => [.half .a, .half .h, .half .l]
  | .xor r => [.half .a, .half r]
  | .bitTest r => [.half r, .f]
  | .unassigned => []

/-- The registers an instruction writes, from the column 'written by' of 10_state.md R25. -/
def regsWritten (i : Instr) : List CoreReg :=
  match familyOf i with
  | .loadPair .bc => [.half .b, .half .c]
  | .loadPair .de => [.half .d, .half .e]
  | .loadPair .hl => [.half .h, .half .l]
  | .loadPair .sp => [.sp]
  | .loadHalf r => [.half r]
  | .store => [.half .h, .half .l]
  | .xor _ => [.half .a, .f]
  | .bitTest _ => [.f]
  | .unassigned => []

/-- The eight BIT instructions of one tested register, in the order of their bit indices. -/
def bitsOfRegister (r : R8) (instrs : List Instr) : List (Instr × BitVec 3 × R8) :=
  instrs.zipIdx.map fun e => (e.1, BitVec.ofNat 3 e.2, r)

/-- Every BIT instruction with its bit index and its tested register (45_bit.md R161 to R167). -/
def bitInstructions : List (Instr × BitVec 3 × R8) :=
  bitsOfRegister .b [.bit0B, .bit1B, .bit2B, .bit3B, .bit4B, .bit5B, .bit6B, .bit7B] ++
  bitsOfRegister .c [.bit0C, .bit1C, .bit2C, .bit3C, .bit4C, .bit5C, .bit6C, .bit7C] ++
  bitsOfRegister .d [.bit0D, .bit1D, .bit2D, .bit3D, .bit4D, .bit5D, .bit6D, .bit7D] ++
  bitsOfRegister .e [.bit0E, .bit1E, .bit2E, .bit3E, .bit4E, .bit5E, .bit6E, .bit7E] ++
  bitsOfRegister .h [.bit0H, .bit1H, .bit2H, .bit3H, .bit4H, .bit5H, .bit6H, .bit7H] ++
  bitsOfRegister .l [.bit0L, .bit1L, .bit2L, .bit3L, .bit4L, .bit5L, .bit6L, .bit7L] ++
  bitsOfRegister .a [.bit0A, .bit1A, .bit2A, .bit3A, .bit4A, .bit5A, .bit6A, .bit7A]

end Sys2Proof.Machine
end

