-- ==== Sys2Proof/Certificates/Slice0/Obligations.lean ====
section
/-! DEFINITION. The statements for the provers. -/

open Sys2Proof
open Sys2Proof.Machine

/-- For every well-formed instruction, with every operand value, and whatever bytes follow, decoding its encoding gives exactly that instruction and exactly the bytes that follow. -/
def Obligations.DecodeOfEncodeIsTheInstruction : Prop :=
  ∀ (i : Instr) (rest : List Byte), i.wf = true → decode (encode i ++ rest) = .ok (i, rest)

/-- If a list of bytes decodes to an instruction and a rest, the instruction is well formed and its encoding followed by the rest is the list: no byte and no bit is dropped. -/
def Obligations.EncodeOfDecodeIsTheBytes : Prop :=
  ∀ (bs : List Byte) (i : Instr) (rest : List Byte), decode bs = .ok (i, rest) →
    i.wf = true ∧ encode i ++ rest = bs

/-- A list of bytes decodes to an instruction exactly when it has a first byte and at least as many bytes as that byte says; no byte value is rejected. -/
def Obligations.DecodeRejectsOnlyATruncatedInstruction : Prop :=
  ∀ bs : List Byte, (∃ i rest, decode bs = .ok (i, rest)) ↔
    ∃ b0 tail, bs = b0 :: tail ∧ lengthOfFirstByte b0 ≤ bs.length

/-- Of the primary opcodes other than 0xCB, 4 are LD rp,d16, 7 are LD r,d8, 2 are the stores, 7 are XOR r and 235 are unassigned; of the extended opcodes 56 are BIT and 200 are unassigned. That the set is closed at these is the decision D1 of the spec. -/
def Obligations.OpcodePagesHoldSeventySixInstructions : Prop :=
  let pages (P : Instr → Bool) (bs : List Byte) (g : Byte → Instr) : Nat := (bs.filter fun b => P (g b)).length
  let bytes : List Byte := (List.range 256).map (BitVec.ofNat 8)
  let primary (P : Family → Bool) : Nat :=
    pages (fun i => P (familyOf i)) (bytes.filter (· != 0xCB)) (fun b => decodePrimary b 0 0)
  let extended (P : Family → Bool) : Nat := pages (fun i => P (familyOf i)) bytes decodeExtended
  primary (fun f => f matches .loadPair _) = 4 ∧ primary (fun f => f matches .loadHalf _) = 7 ∧
  primary (fun f => f matches .store) = 2 ∧ primary (fun f => f matches .xor _) = 7 ∧
  primary (fun f => f matches .unassigned) = 235 ∧
  extended (fun f => f matches .bitTest _) = 56 ∧ extended (fun f => f matches .unassigned) = 200

/-- The bytes 31 FE FF, 3E 5A, 22, 32, AF, CB 7C, 36 and CB 46 decode to LD SP,0xFFFE, LD A,0x5A, LD (HL+),A, LD (HL-),A, XOR A, BIT 7,H and to unassigned opcodes of the primary and the extended page. The opcode bytes and the register order are the spec's own decisions D2 to D5 (92_eei_decisions.md). -/
def Obligations.WordsOfEachFamilyDecode : Prop :=
  decode [0x31, 0xFE, 0xFF] = .ok (.ldSpD16 0xFFFE, []) ∧ decode [0x3E, 0x5A] = .ok (.ldAD8 0x5A, []) ∧
  decode [0x22] = .ok (.ldHliA, []) ∧ decode [0x32] = .ok (.ldHldA, []) ∧ decode [0xAF] = .ok (.xorA, []) ∧
  decode [0xCB, 0x7C] = .ok (.bit7H, []) ∧ decode [0x36] = .ok (.unimplPrimary 0x36, []) ∧
  decode [0xCB, 0x46] = .ok (.unimplExtended 0x46, [])

/-- For every byte, x is bits 7-6, y bits 5-3, z bits 2-0, p is y shifted right by one (bits 5-4) and q is y modulo 2 (bit 3); the byte is x, y and z put together, and y is p and q put together. -/
def Obligations.OpcodeByteSplitsIntoItsFields : Prop :=
  ∀ b : Byte,
    let f := fieldsOf b
    f.x.toNat = b.toNat / 64 ∧ f.y.toNat = b.toNat / 8 % 8 ∧ f.z.toNat = b.toNat % 8 ∧
    f.p.toNat = f.y.toNat / 2 ∧ f.q.toNat = f.y.toNat % 2 ∧
    f.p.toNat = b.toNat / 16 % 4 ∧ f.q.toNat = b.toNat / 8 % 2 ∧
    b.toNat = f.x.toNat * 64 + f.y.toNat * 8 + f.z.toNat ∧ f.y.toNat = f.p.toNat * 2 + f.q.toNat

/-- The 8-bit selector values 0 to 7 select B, C, D, E, H, L, nothing, A; the 16-bit selector values 0 to 3 select BC, DE, HL, SP. Only H at 4, A at 7 and SP at 3 are pinned by the source; the rest is the decisions D2, D3 and D4 of the spec. -/
def Obligations.SelectorTablesAsEnumerated : Prop :=
  r8Selected 0 = some .b ∧ r8Selected 1 = some .c ∧ r8Selected 2 = some .d ∧ r8Selected 3 = some .e ∧
  r8Selected 4 = some .h ∧ r8Selected 5 = some .l ∧ r8Selected 6 = none ∧ r8Selected 7 = some .a ∧
  rpSelected 0 = .bc ∧ rpSelected 1 = .de ∧ rpSelected 2 = .hl ∧ rpSelected 3 = .sp

/-- The instruction fetched in any state is well formed and its encoding is the bytes at PC, in ascending address order modulo 65536, as many as the first byte tells; and a state with the same PC and the same bytes there fetches the same instruction, whatever its other bytes are. -/
def Obligations.FetchReadsExactlyTheInstructionBytes : Prop :=
  (∀ s : State, (fetchInstr s).wf = true ∧ encode (fetchInstr s) = fetchBytes s) ∧
  ∀ s s' : State, s'.pc = s.pc →
    (∀ k : Nat, k < lengthOfFirstByte (fetchAt 0 s) →
      fetchAt (BitVec.ofNat 16 k) s' = fetchAt (BitVec.ofNat 16 k) s) →
    fetchInstr s' = fetchInstr s

/-- If the three bytes at PC, PC+1 and PC+2 decode to an instruction, step is exec of that instruction at the same state; the meaning itself moves PC past the bytes of the instruction. -/
def Obligations.StepRunsTheDecodedInstruction : Prop :=
  ∀ (s : State) (i : Instr) (rest : List Byte),
    decode [memRead s.mem s.pc, memRead s.mem (s.pc + 1), memRead s.mem (s.pc + 2)] = .ok (i, rest) →
    step s = exec i s

/-- If the bytes from PC on, addresses modulo 65536, are the encoding of a well-formed instruction, step is exec of that instruction. -/
def Obligations.StepRunsThePlacedEncoding : Prop :=
  ∀ (s : State) (i : Instr), i.wf = true →
    (∀ (k : Nat) (h : k < (encode i).length), memRead s.mem (s.pc + BitVec.ofNat 16 k) = (encode i)[k]) →
    step s = exec i s

/-- In every state with a canonical memory, after a table word is stored at PC, the next step executes the instruction the decoder reads from that word, and PC and the registers are as before the store. The layout of the word is the choice of the model (log entry 10). -/
def Obligations.StepAfterWithFetchWordRunsTheTableWord : Prop :=
  ∀ (s : State) (nbits w : Nat) (i : Instr), StateInv s → decodeTableWord nbits w = some i →
    step (s.withFetchWord nbits w) = exec i (s.withFetchWord nbits w) ∧
    s.withFetchWord nbits w = { s with mem := (s.withFetchWord nbits w).mem }

/-- From every state step answers a next state, whose result is Ok or UnimplementedOpcode: there is no fault, no refusal and no state in which the machine is stuck. -/
def Obligations.EveryStepCompletes : Prop :=
  ∀ s : State, ∃ t, step s = .next t ∧
    (t.report = some .ok ∨ ∃ byte addr page, t.report = some (.unimplementedOpcode byte addr page))

/-- In every state, the step of the model (decode whole, execute one meaning per instruction, PC moved once) gives the state that the pseudocode of the spec gives (PC moved at every byte read, registers selected by the fields, F computed as a byte). -/
def Obligations.StepIsThePseudocodeOfTheSpec : Prop :=
  ∀ s : State, step s = .next (pseudoStep s)

/-- For every instruction with every operand value and every state, exec answers a next state whose PC is the old one plus the length of the instruction modulo 65536; its result is Ok exactly when the instruction has semantics. -/
def Obligations.EveryInstructionCompletesPastItsBytes : Prop :=
  ∀ (i : Instr) (s : State), ∃ t, exec i s = .next t ∧ t.pc = s.pc + BitVec.ofNat 16 i.length ∧
    (t.report = some .ok ↔ familyOf i ≠ .unassigned)

/-- After every step PC has moved by 3 for the first bytes 0x01, 0x11, 0x21, 0x31, by 2 for 0x06, 0x0E, 0x16, 0x1E, 0x26, 0x2E, 0x3E, 0xCB, and by 1 for every other byte, modulo 65536. The opcode bytes and the register order are the spec's own decisions D2 to D5 (92_eei_decisions.md). -/
def Obligations.StepMovesPcByTheLengthOfTheFirstByte : Prop :=
  ∀ s t : State, step s = .next t →
    t.pc = s.pc +
      if memRead s.mem s.pc ∈ ([0x01, 0x11, 0x21, 0x31] : List Byte) then 3
      else if memRead s.mem s.pc ∈ ([0x06, 0x0E, 0x16, 0x1E, 0x26, 0x2E, 0x3E, 0xCB] : List Byte) then 2
      else 1

/-- For every state and every immediate, LD BC, LD DE, LD HL and LD SP answer a next state that differs from the old one in nothing but the named pair (high byte of the immediate in the high half), PC plus 3, and the result Ok. -/
def Obligations.LoadPairTakesItsImmediate : Prop :=
  ∀ (imm : Word) (s : State),
    exec (.ldBcD16 imm) s = .next { s with b := hiByte imm, c := loByte imm, pc := s.pc + 3, report := some .ok } ∧
    exec (.ldDeD16 imm) s = .next { s with d := hiByte imm, e := loByte imm, pc := s.pc + 3, report := some .ok } ∧
    exec (.ldHlD16 imm) s = .next { s with h := hiByte imm, l := loByte imm, pc := s.pc + 3, report := some .ok } ∧
    exec (.ldSpD16 imm) s = .next { s with sp := imm, pc := s.pc + 3, report := some .ok }

/-- For every state and every immediate, the seven LD r,d8 answer a next state that differs from the old one in nothing but the named register, PC plus 2, and the result Ok. -/
def Obligations.LoadHalfTakesItsImmediate : Prop :=
  ∀ (imm : Byte) (s : State),
    exec (.ldBD8 imm) s = .next { s with b := imm, pc := s.pc + 2, report := some .ok } ∧
    exec (.ldCD8 imm) s = .next { s with c := imm, pc := s.pc + 2, report := some .ok } ∧
    exec (.ldDD8 imm) s = .next { s with d := imm, pc := s.pc + 2, report := some .ok } ∧
    exec (.ldED8 imm) s = .next { s with e := imm, pc := s.pc + 2, report := some .ok } ∧
    exec (.ldHD8 imm) s = .next { s with h := imm, pc := s.pc + 2, report := some .ok } ∧
    exec (.ldLD8 imm) s = .next { s with l := imm, pc := s.pc + 2, report := some .ok } ∧
    exec (.ldAD8 imm) s = .next { s with a := imm, pc := s.pc + 2, report := some .ok }

/-- In every state with a canonical memory, each of the two stores answers a next state in which the byte at the old HL is A and every other byte is as before, HL is one more (or one less) modulo 65536, PC is one more, the result is Ok, and A, the flags and every other register are as before. -/
def Obligations.StoresWriteAThenAdjustHl : Prop :=
  ∀ s : State, StateInv s → ∀ (i : Instr) (k : Word), (i = .ldHliA ∧ k = 1 ∨ i = .ldHldA ∧ k = 0xFFFF) →
    ∃ t, exec i s = .next t ∧
      (∀ x : Word, memRead t.mem x = if x = joinBytes s.h s.l then s.a else memRead s.mem x) ∧
      joinBytes t.h t.l = joinBytes s.h s.l + k ∧
      t = { s with h := t.h, l := t.l, mem := t.mem, pc := s.pc + 1, report := some .ok }

/-- For every state, each of the seven XOR r answers a next state in which A is A exclusive-or the operand, Z tells whether that is zero, N, H and C are clear, PC is one more, the result is Ok, and nothing else is changed. -/
def Obligations.XorWritesAAndAllFourFlags : Prop :=
  ∀ s : State,
    exec .xorB s = .next { s with
      a := s.a ^^^ s.b, flags := ⟨decide (s.a ^^^ s.b = 0), false, false, false⟩, pc := s.pc + 1, report := some .ok } ∧
    exec .xorC s = .next { s with
      a := s.a ^^^ s.c, flags := ⟨decide (s.a ^^^ s.c = 0), false, false, false⟩, pc := s.pc + 1, report := some .ok } ∧
    exec .xorD s = .next { s with
      a := s.a ^^^ s.d, flags := ⟨decide (s.a ^^^ s.d = 0), false, false, false⟩, pc := s.pc + 1, report := some .ok } ∧
    exec .xorE s = .next { s with
      a := s.a ^^^ s.e, flags := ⟨decide (s.a ^^^ s.e = 0), false, false, false⟩, pc := s.pc + 1, report := some .ok } ∧
    exec .xorH s = .next { s with
      a := s.a ^^^ s.h, flags := ⟨decide (s.a ^^^ s.h = 0), false, false, false⟩, pc := s.pc + 1, report := some .ok } ∧
    exec .xorL s = .next { s with
      a := s.a ^^^ s.l, flags := ⟨decide (s.a ^^^ s.l = 0), false, false, false⟩, pc := s.pc + 1, report := some .ok } ∧
    exec .xorA s = .next { s with
      a := s.a ^^^ s.a, flags := ⟨decide (s.a ^^^ s.a = 0), false, false, false⟩, pc := s.pc + 1, report := some .ok }

/-- The list holds the 56 BIT instructions, each once, with the bit index and register of its name; for each of them and every state, exec answers a next state in which F is ((1 - t) << 7) | 0x20 | (F & 0x10) for the tested bit t, PC is two more, the result is Ok, and nothing else is changed. -/
def Obligations.BitTestWritesTheFlagsAlone : Prop :=
  bitInstructions.length = 56 ∧ (bitInstructions.map Prod.fst).Nodup ∧
  ∀ e ∈ bitInstructions, ∀ s : State, ∃ t, exec e.1 s = .next t ∧
    readF t = ((1 - ((read8 e.2.2 s >>> e.2.1.toNat) &&& 1)) <<< 7) ||| 0x20 ||| (readF s &&& 0x10) ∧
    t = { s with flags := t.flags, pc := s.pc + 2, report := some .ok }

/-- For every byte and state, the unassigned opcode of the primary page answers the same state but PC plus 1 and the report (byte, PC, primary), and that of the extended page the same state but PC plus 2 and the report (byte, PC + 1, extended). What byte and addr mean on the extended page is the decision D7 of the spec; the report is the model's own field (log entry 2). -/
def Obligations.UnimplementedOpcodeReportsItsByte : Prop :=
  ∀ (op : Byte) (s : State),
    exec (.unimplPrimary op) s =
      .next { s with pc := s.pc + 1, report := some (.unimplementedOpcode op s.pc .primary) } ∧
    exec (.unimplExtended op) s =
      .next { s with pc := s.pc + 2, report := some (.unimplementedOpcode op (s.pc + 1) .extended) }

/-- When LD rp,d16 (BC, DE, HL, SP) or LD r,d8 (A, B, C, D, E, H, L) answers a next state, every register but the destination and PC, every flag, SP where it is not the destination, and every byte of memory are unchanged. -/
def Obligations.LoadsFrame : Prop :=
  ∀ (i : Instr) (s t : State), exec i s = .next t →
    (familyOf i = .loadPair .bc → t = { s with b := t.b, c := t.c, pc := t.pc, report := t.report }) ∧
    (familyOf i = .loadPair .de → t = { s with d := t.d, e := t.e, pc := t.pc, report := t.report }) ∧
    (familyOf i = .loadPair .hl → t = { s with h := t.h, l := t.l, pc := t.pc, report := t.report }) ∧
    (familyOf i = .loadPair .sp → t = { s with sp := t.sp, pc := t.pc, report := t.report }) ∧
    (familyOf i = .loadHalf .b → t = { s with b := t.b, pc := t.pc, report := t.report }) ∧
    (familyOf i = .loadHalf .c → t = { s with c := t.c, pc := t.pc, report := t.report }) ∧
    (familyOf i = .loadHalf .d → t = { s with d := t.d, pc := t.pc, report := t.report }) ∧
    (familyOf i = .loadHalf .e → t = { s with e := t.e, pc := t.pc, report := t.report }) ∧
    (familyOf i = .loadHalf .h → t = { s with h := t.h, pc := t.pc, report := t.report }) ∧
    (familyOf i = .loadHalf .l → t = { s with l := t.l, pc := t.pc, report := t.report }) ∧
    (familyOf i = .loadHalf .a → t = { s with a := t.a, pc := t.pc, report := t.report }) ∧
    ((∃ r, familyOf i = .loadPair r) ∨ (∃ r, familyOf i = .loadHalf r) →
      ∀ x : Word, memRead t.mem x = memRead s.mem x)

/-- When LD (HL+),A or LD (HL-),A answers a next state, every register but H, L (adjusted) and PC, every flag and SP are unchanged, and every byte of memory outside the address stored to, which is HL before the adjustment, reads as before. -/
def Obligations.StoresFrame : Prop :=
  ∀ (i : Instr) (s t : State), StateInv s → i = .ldHliA ∨ i = .ldHldA → exec i s = .next t →
    t = { s with h := t.h, l := t.l, mem := t.mem, pc := t.pc, report := t.report } ∧
    ∀ a : Word, storeAddress s = a → ∀ x : Word, x ≠ a → memRead t.mem x = memRead s.mem x

/-- When XOR B, C, D, E, H, L or A answers a next state, every register but A, F and PC, SP, and every byte of memory are unchanged. -/
def Obligations.XorFrame : Prop :=
  ∀ (i : Instr) (r : R8) (s t : State), familyOf i = .xor r → exec i s = .next t →
    t = { s with a := t.a, flags := t.flags, pc := t.pc, report := t.report } ∧ ∀ x : Word, memRead t.mem x = memRead s.mem x

/-- When any of the 56 BIT b,r answers a next state, every register but F and PC, the Carry flag, SP, the tested register and every byte of memory are unchanged. -/
def Obligations.BitTestFrame : Prop :=
  ∀ (i : Instr) (r : R8) (s t : State), familyOf i = .bitTest r → exec i s = .next t →
    t = { s with flags := t.flags, pc := t.pc, report := t.report } ∧ t.flags.c = s.flags.c ∧
    ∀ x : Word, memRead t.mem x = memRead s.mem x

/-- A step reports UnimplementedOpcode exactly when the instruction at PC is one without assigned semantics; then every register, flag, SP and byte of memory is what it was, and PC has moved by one byte on the primary page and by two on the extended page; and the bytes after these are not read: with any other memory that has the same one byte (or two bytes) at PC, the step reports the same and leaves that memory. -/
def Obligations.UnimplementedOpcodeChangesOnlyPc : Prop :=
  ∀ s t : State, step s = .next t →
    ((∃ byte addr page, t.report = some (.unimplementedOpcode byte addr page)) ↔
      familyOf (fetchInstr s) = .unassigned) ∧
    ∀ (byte : Byte) (addr : Word) (page : Page), t.report = some (.unimplementedOpcode byte addr page) →
      (page = .extended ↔ memRead s.mem s.pc = 0xCB) ∧
      t = { s with pc := (match page with
                          | .primary => s.pc + 1
                          | .extended => s.pc + 2), report := t.report } ∧
      ∀ m : Memory, memRead m s.pc = memRead s.mem s.pc →
        (page = .extended → memRead m (s.pc + 1) = memRead s.mem (s.pc + 1)) →
        stepOn m s = .next (withMemory m t)

/-- In every state whose byte at PC is 0x01, 0x11 or 0x21, the step puts the byte at PC + 1 in the low half and the byte at PC + 2 in the high half of BC, DE or HL, moves PC by 3, all modulo 65536, and changes nothing else. The opcode bytes and the register order are the spec's own decisions D2 to D5 (92_eei_decisions.md). -/
def Obligations.StepOfLoadPairReadsTheImmediateBytes : Prop :=
  ∀ s : State,
    (memRead s.mem s.pc = 0x01 → step s = .next { s with
      b := memRead s.mem (s.pc + 2), c := memRead s.mem (s.pc + 1), pc := s.pc + 3, report := some .ok }) ∧
    (memRead s.mem s.pc = 0x11 → step s = .next { s with
      d := memRead s.mem (s.pc + 2), e := memRead s.mem (s.pc + 1), pc := s.pc + 3, report := some .ok }) ∧
    (memRead s.mem s.pc = 0x21 → step s = .next { s with
      h := memRead s.mem (s.pc + 2), l := memRead s.mem (s.pc + 1), pc := s.pc + 3, report := some .ok })

/-- The opcode 0x31 loads SP from the bytes at PC + 1 (low) and PC + 2 (high), moves PC by 3 and changes nothing else; every other step leaves SP as it was; replacing SP before a step changes nothing in the state after it but SP; reset zeroes SP. -/
def Obligations.LdSpWritesSpAndNothingReadsIt : Prop :=
  (∀ s : State, memRead s.mem s.pc = 0x31 → step s = .next { s with
      sp := joinBytes (memRead s.mem (s.pc + 2)) (memRead s.mem (s.pc + 1)), pc := s.pc + 3, report := some .ok }) ∧
  (∀ s t : State, memRead s.mem s.pc ≠ 0x31 → step s = .next t → t.sp = s.sp) ∧
  (∀ (s : State) (v : Word), ∃ t t', step s = .next t ∧ step { s with sp := v } = .next t' ∧
      t' = { t with sp := t'.sp }) ∧
  ∀ s : State, (resetCore s).sp = 0

/-- In every state whose byte at PC is 0x06, 0x0E, 0x16, 0x1E, 0x26, 0x2E or 0x3E, the step puts the byte at PC + 1 in B, C, D, E, H, L or A, moves PC by 2, all modulo 65536, and changes nothing else. The opcode bytes and the register order are the spec's own decisions D2 to D5 (92_eei_decisions.md). -/
def Obligations.StepOfLoadHalfReadsTheImmediateByte : Prop :=
  ∀ s : State,
    (memRead s.mem s.pc = 0x06 → step s = .next { s with
      b := memRead s.mem (s.pc + 1), pc := s.pc + 2, report := some .ok }) ∧
    (memRead s.mem s.pc = 0x0E → step s = .next { s with
      c := memRead s.mem (s.pc + 1), pc := s.pc + 2, report := some .ok }) ∧
    (memRead s.mem s.pc = 0x16 → step s = .next { s with
      d := memRead s.mem (s.pc + 1), pc := s.pc + 2, report := some .ok }) ∧
    (memRead s.mem s.pc = 0x1E → step s = .next { s with
      e := memRead s.mem (s.pc + 1), pc := s.pc + 2, report := some .ok }) ∧
    (memRead s.mem s.pc = 0x26 → step s = .next { s with
      h := memRead s.mem (s.pc + 1), pc := s.pc + 2, report := some .ok }) ∧
    (memRead s.mem s.pc = 0x2E → step s = .next { s with
      l := memRead s.mem (s.pc + 1), pc := s.pc + 2, report := some .ok }) ∧
    (memRead s.mem s.pc = 0x3E → step s = .next { s with
      a := memRead s.mem (s.pc + 1), pc := s.pc + 2, report := some .ok })

/-- In every state with a canonical memory whose byte at PC is 0x22 or 0x32, the step makes the byte at HL equal A, leaves every other byte, then moves HL by plus or minus one and PC by one, modulo 65536, and changes nothing else; so HL = 0xFFFF becomes 0x0000 and HL = 0x0000 becomes 0xFFFF. The opcode bytes and the register order are the spec's own decisions D2 to D5 (92_eei_decisions.md). -/
def Obligations.StepOfStoresWritesAtHl : Prop :=
  ∀ s : State, StateInv s → memRead s.mem s.pc = 0x22 ∨ memRead s.mem s.pc = 0x32 →
    ∃ t, step s = .next t ∧
      (∀ x : Word, memRead t.mem x = if x = read16 .hl s then s.a else memRead s.mem x) ∧
      (memRead s.mem s.pc = 0x22 → read16 .hl t = read16 .hl s + 1) ∧
      (memRead s.mem s.pc = 0x32 → read16 .hl t = read16 .hl s - 1) ∧
      t = { s with h := t.h, l := t.l, mem := t.mem, pc := s.pc + 1, report := some .ok }

/-- In every state whose byte at PC is 0xA8 to 0xAD, the step makes A the exclusive-or of A and B, C, D, E, H or L, makes F 0x80 if that is zero and 0x00 if not, moves PC by 1 modulo 65536, and changes nothing else. The opcode bytes and the register order are the spec's own decisions D2 to D5 (92_eei_decisions.md). -/
def Obligations.StepOfXorIsTheExclusiveOr : Prop :=
  ∀ s : State,
    (memRead s.mem s.pc = 0xA8 → ∃ t, step s = .next t ∧ t.a = s.a ^^^ s.b ∧
      readF t = (if s.a ^^^ s.b = 0 then 0x80 else 0x00) ∧
      t = { s with a := t.a, flags := t.flags, pc := s.pc + 1, report := some .ok }) ∧
    (memRead s.mem s.pc = 0xA9 → ∃ t, step s = .next t ∧ t.a = s.a ^^^ s.c ∧
      readF t = (if s.a ^^^ s.c = 0 then 0x80 else 0x00) ∧
      t = { s with a := t.a, flags := t.flags, pc := s.pc + 1, report := some .ok }) ∧
    (memRead s.mem s.pc = 0xAA → ∃ t, step s = .next t ∧ t.a = s.a ^^^ s.d ∧
      readF t = (if s.a ^^^ s.d = 0 then 0x80 else 0x00) ∧
      t = { s with a := t.a, flags := t.flags, pc := s.pc + 1, report := some .ok }) ∧
    (memRead s.mem s.pc = 0xAB → ∃ t, step s = .next t ∧ t.a = s.a ^^^ s.e ∧
      readF t = (if s.a ^^^ s.e = 0 then 0x80 else 0x00) ∧
      t = { s with a := t.a, flags := t.flags, pc := s.pc + 1, report := some .ok }) ∧
    (memRead s.mem s.pc = 0xAC → ∃ t, step s = .next t ∧ t.a = s.a ^^^ s.h ∧
      readF t = (if s.a ^^^ s.h = 0 then 0x80 else 0x00) ∧
      t = { s with a := t.a, flags := t.flags, pc := s.pc + 1, report := some .ok }) ∧
    (memRead s.mem s.pc = 0xAD → ∃ t, step s = .next t ∧ t.a = s.a ^^^ s.l ∧
      readF t = (if s.a ^^^ s.l = 0 then 0x80 else 0x00) ∧
      t = { s with a := t.a, flags := t.flags, pc := s.pc + 1, report := some .ok })

/-- In every state whose byte at PC is 0xAF, the step makes A zero and F 0x80 (AF = 0x0080) whatever they were, moves PC by 1, and changes nothing else; and executing XOR A on the state it leaves changes nothing but PC. -/
def Obligations.XorAAlwaysClearsAAndSetsZeroAlone : Prop :=
  (∀ s : State, memRead s.mem s.pc = 0xAF → ∃ t, step s = .next t ∧ read16 .af t = 0x0080 ∧
      t = { s with a := 0, flags := ⟨true, false, false, false⟩, pc := s.pc + 1, report := some .ok }) ∧
  ∀ s t : State, exec .xorA s = .next t → exec .xorA t = .next { t with pc := t.pc + 1 }

/-- In every state whose byte at PC is 0xCB and whose next byte is 0x40 | (b << 3) | z, for every b from 0 to 7 and z the selector of B, C, D, E, H, L or A, the step sets Z exactly when bit b of that register is 0, clears N, sets H, keeps C, moves PC by 2 modulo 65536, and changes nothing else. The opcode bytes and the register order are the spec's own decisions D2 to D5 (92_eei_decisions.md). -/
def Obligations.StepOfBitTestsTheNamedBit : Prop :=
  ∀ (s : State) (b : BitVec 3) (z : Byte) (r : R8),
    (z, r) ∈ ([(0, .b), (1, .c), (2, .d), (3, .e), (4, .h), (5, .l), (7, .a)] : List (Byte × R8)) →
    memRead s.mem s.pc = 0xCB →
    memRead s.mem (s.pc + 1) = 0x40#8 ||| (BitVec.ofNat 8 b.toNat <<< 3) ||| z →
    step s = .next { s with
      flags := ⟨decide ((read8 r s).getLsbD b.toNat = false), false, true, s.flags.c⟩,
      pc := s.pc + 2, report := some .ok }

/-- In every state whose byte at PC is neither 0xCB nor one of the twenty listed opcodes, and in every state whose bytes at PC are 0xCB and a value outside 0x40 to 0x7F or with the low three bits 6, the step changes PC alone (by 1, by 2) and reports that byte, the address it was read from and its page. The set of values and the payload are the decisions D1, D3 and D7 of the spec. -/
def Obligations.StepReportsEveryUnassignedOpcode : Prop :=
  ∀ s : State,
    (memRead s.mem s.pc ≠ 0xCB →
      memRead s.mem s.pc ∉ ([0x01, 0x06, 0x0E, 0x11, 0x16, 0x1E, 0x21, 0x22, 0x26, 0x2E, 0x31, 0x32, 0x3E,
        0xA8, 0xA9, 0xAA, 0xAB, 0xAC, 0xAD, 0xAF] : List Byte) →
      step s = .next { s with
        pc := s.pc + 1, report := some (.unimplementedOpcode (memRead s.mem s.pc) s.pc .primary) }) ∧
    (memRead s.mem s.pc = 0xCB →
      (memRead s.mem (s.pc + 1)).toNat < 0x40 ∨ 0x7F < (memRead s.mem (s.pc + 1)).toNat ∨
        (memRead s.mem (s.pc + 1)).toNat % 8 = 6 →
      step s = .next { s with
        pc := s.pc + 2,
        report := some (.unimplementedOpcode (memRead s.mem (s.pc + 1)) (s.pc + 1) .extended) })

/-- Where the byte at PC is 0xCB, the step runs the extended opcode after it and consumes both; where that byte is 0xCB too it is an unassigned extended opcode; where the byte at PC is another, the primary page is used whatever follows, and an immediate byte 0xCB is a number. What the report names on the extended page is the decision D7 of the spec, that 0xCB has no semantics there D1, and that 0x3E is LD A,d8 is D5 (92_eei_decisions.md). -/
def Obligations.PrefixSelectsTheExtendedPageOnce : Prop :=
  ∀ s : State,
    (memRead s.mem s.pc = 0xCB → ∃ t, step s = .next t ∧ step s = exec (decodeExtended (memRead s.mem (s.pc + 1))) s ∧
      t.pc = s.pc + 2 ∧
      (memRead s.mem (s.pc + 1) = 0xCB → t.report = some (.unimplementedOpcode 0xCB (s.pc + 1) .extended))) ∧
    (memRead s.mem s.pc ≠ 0xCB → step s =
      exec (decodePrimary (memRead s.mem s.pc) (memRead s.mem (s.pc + 1)) (memRead s.mem (s.pc + 2))) s) ∧
    (memRead s.mem s.pc = 0x3E → memRead s.mem (s.pc + 1) = 0xCB →
      step s = .next { s with a := 0xCB, pc := s.pc + 2, report := some .ok }) ∧
    (memRead s.mem s.pc = 0x31 → memRead s.mem (s.pc + 1) = 0xCB → memRead s.mem (s.pc + 2) = 0xCB →
      step s = .next { s with sp := 0xCBCB, pc := s.pc + 3, report := some .ok })

/-- In every state with a canonical memory, a store (LD (HL+),A or LD (HL-),A) at the PC of the state completes, whatever HL is, its own address among them, with HL moved by plus or minus one, PC by one and nothing else but the stored byte changed, and every byte the next state fetches, at any distance from its PC, is A at that address and the old byte elsewhere. -/
def Obligations.StoreIsSeenByEveryLaterFetch : Prop :=
  ∀ s : State, StateInv s → ∀ i : Instr, i = .ldHliA ∨ i = .ldHldA → fetchInstr s = i →
    ∃ t, step s = .next t ∧ t = { s with h := t.h, l := t.l, mem := t.mem, pc := s.pc + 1, report := some .ok } ∧
      read16 .hl t = (if i = .ldHliA then read16 .hl s + 1 else read16 .hl s - 1) ∧
      ∀ k : Word, fetchAt k t = if t.pc + k = read16 .hl s then s.a else memRead s.mem (t.pc + k)

/-- The byte k places after the opcode is read at (PC + k) modulo 65536 for k = 0, 1, 2; an LD SP,d16 at 0xFFFE has its high byte at 0x0000, one at 0xFFFF has both bytes after the wrap, an extended opcode whose prefix is at 0xFFFF is at 0x0000, an opcode at 0xFFFF is followed by 0x0000, a store at HL = 0xFFFF leaves HL = 0x0000 and one at HL = 0x0000 leaves 0xFFFF; and every step completes. -/
def Obligations.AddressesWrapAtTheTopOfMemory : Prop :=
  ∀ s : State,
    let byteAt (k : Nat) : Byte := Memory.lookup s.mem ((s.pc.toNat + k) % 65536)
    step s = exec (decodeBytes (byteAt 0) (byteAt 1) (byteAt 2)) s ∧
    (s.pc = 0xFFFE → memRead s.mem 0xFFFE = 0x31 → step s = .next { s with
      sp := joinBytes (memRead s.mem 0) (memRead s.mem 0xFFFF), pc := 1, report := some .ok }) ∧
    (s.pc = 0xFFFF → memRead s.mem 0xFFFF = 0x31 → step s = .next { s with
      sp := joinBytes (memRead s.mem 1) (memRead s.mem 0), pc := 2, report := some .ok }) ∧
    (s.pc = 0xFFFF → memRead s.mem 0xFFFF = 0xCB → step s = exec (decodeExtended (memRead s.mem 0)) s) ∧
    (s.pc = 0xFFFF → memRead s.mem 0xFFFF = 0xAF → ∃ t, step s = .next t ∧ t.pc = 0) ∧
    (read16 .hl s = 0xFFFF → ∃ t, exec .ldHliA s = .next t ∧ read16 .hl t = 0 ∧ t.flags = s.flags) ∧
    (read16 .hl s = 0 → ∃ t, exec .ldHldA s = .next t ∧ read16 .hl t = 0xFFFF ∧ t.flags = s.flags) ∧
    ∃ t, step s = .next t

/-- Two states with canonical memories that agree on every register and on every byte of memory, whatever result their latest steps returned, have the same next state, its result included; and a step on a lent memory does not depend on the memory lent before. -/
def Obligations.StepDependsOnlyOnRegistersAndMemoryContent : Prop :=
  (∀ s s' : State, StateInv s → StateInv s' → (∀ x : Word, memRead s'.mem x = memRead s.mem x) →
    s' = { s with mem := s'.mem, report := s'.report } → step s' = step s) ∧
  ∀ (s : State) (m m' : Memory), stepOn m (withMemory m' s) = stepOn m s

/-- If a step answers a next state whose Carry is set, Carry was set before, and the same of Subtract; both are clear after reset, so the states with both clear are closed under every step. -/
def Obligations.NoStepSetsSubtractOrCarry : Prop :=
  (∀ s t : State, step s = .next t →
    (t.flags.c = true → s.flags.c = true) ∧ (t.flags.n = true → s.flags.n = true)) ∧
  (∀ s : State, (resetCore s).flags.c = false ∧ (resetCore s).flags.n = false)

/-- From every state whose memory list has strictly rising addresses below 65536 and no entry equal to the unlisted byte, every next state has such a list again; so equal contents are equal data all along a run. The form is the model's (log entry 1). -/
def Obligations.StepKeepsMemoryCanonical : Prop :=
  ∀ s t : State, StateInv s → step s = .next t → StateInv t

/-- The invariant that every step keeps holds of State.reset and of the launch state of every memory image; reset, a byte changed by the host and a table word stored at PC keep it. -/
def Obligations.ResetAndLaunchHaveCanonicalMemory : Prop :=
  StateInv State.reset ∧ (∀ image : Word → Byte, StateInv (launch image)) ∧
  ∀ s : State, StateInv s → StateInv (resetCore s) ∧ (∀ (a : Word) (v : Byte), StateInv (hostPoke a v s)) ∧
    ∀ nbits w : Nat, StateInv (s.withFetchWord nbits w)

/-- If a byte of memory differs after a step from a state with a canonical memory, its address is HL before the step, the byte at PC was 0x22 or 0x32, and the new byte is A. The opcode bytes and the register order are the spec's own decisions D2 to D5 (92_eei_decisions.md). -/
def Obligations.OnlyStoresChangeMemoryAndOnlyAtHl : Prop :=
  ∀ (s t : State) (x : Word), StateInv s → step s = .next t → memRead t.mem x ≠ memRead s.mem x →
    x = read16 .hl s ∧ memRead t.mem x = s.a ∧ (memRead s.mem s.pc = 0x22 ∨ memRead s.mem s.pc = 0x32)

/-- For every instruction, every state and every register (the seven halves, F and SP), if the matrix of the spec does not name the instruction in the written-by cell of the register, the register has after exec the value it had before. -/
def Obligations.InstructionsWriteOnlyTheirRegisters : Prop :=
  ∀ (i : Instr) (s t : State) (r : CoreReg), exec i s = .next t → r ∉ regsWritten i →
    readReg r t = readReg r s

/-- For every instruction, state and register that the read-by column of the matrix does not name for it, replacing the value of that register before exec changes in the next state at most that register: PC, the result, the memory and every other register come out the same, and so does the register itself where the instruction writes it. -/
def Obligations.InstructionsReadOnlyTheirRegisters : Prop :=
  ∀ (i : Instr) (s : State) (r : CoreReg) (v : Word), r ∉ regsRead i →
    ∃ t t', exec i s = .next t ∧ exec i (setReg r v s) = .next t' ∧
      t'.pc = t.pc ∧ t'.report = t.report ∧ t'.mem = t.mem ∧
      (∀ q : CoreReg, q ≠ r → readReg q t' = readReg q t) ∧
      (r ∈ regsWritten i → readReg r t' = readReg r t)

/-- For every number of steps and every state with a canonical memory, running that many steps of the machine one after another, with nothing done by the host between them, reaches a state, again with a canonical memory: neither an unassigned opcode nor anything else stops the core. That the host does nothing between the steps is the choice of the model (log entry 8, DESIGN CHOICE; the spec leaves open what the host does there, 93_implementation_defined.md U10). -/
def Obligations.TheCoreNeverEndsARun : Prop :=
  ∀ (k : Nat) (s : State), StateInv s → ∃ t : State, Host.Core.run Sys2Proof.core k s = .next t ∧ StateInv t

/-- For every image (MEM_INIT : address -> byte) the launch state reads that image at every address, and its memory is the only canonical list that does; so the byte unlisted cells read as restricts no image. -/
def Obligations.EveryMemoryImageIsOneCanonicalMemory : Prop :=
  ∀ image : Word → Byte, (∀ x : Word, memRead (launch image).mem x = image x) ∧
    ∀ m : Memory, m.wf = true → (∀ x : Word, memRead m x = image x) → m = (launch image).mem

/-- After reset from any state A, F, B, C, D, E, H, L, AF, BC, DE, HL, SP and PC are zero and the memory is the memory before; a second reset changes nothing; the result depends on the memory alone; State.reset has these register values, and a launch state has them with the host's image as its memory. -/
def Obligations.ResetZeroesEveryRegisterAndKeepsMemory : Prop :=
  (∀ s : State, let t := resetCore s
    t.a = 0 ∧ readF t = 0 ∧ t.b = 0 ∧ t.c = 0 ∧ t.d = 0 ∧ t.e = 0 ∧ t.h = 0 ∧ t.l = 0 ∧
    read16 .af t = 0 ∧ read16 .bc t = 0 ∧ read16 .de t = 0 ∧ read16 .hl t = 0 ∧ t.sp = 0 ∧ t.pc = 0 ∧
    t.flags = ⟨false, false, false, false⟩ ∧ t.mem = s.mem ∧ resetCore t = t) ∧
  (∀ s s' : State, s'.mem = s.mem → resetCore s' = resetCore s) ∧
  resetCore State.reset = State.reset ∧
  ∀ image : Word → Byte, resetCore (launch image) = launch image ∧ (launch image).mem = memoryOfImage image

/-- After reset from any state, the step executes the instruction whose bytes are at 0x0000, 0x0001 and 0x0002 of the memory as it stands. -/
def Obligations.FirstStepAfterResetFetchesAtZero : Prop :=
  ∀ s : State, step (resetCore s) =
    exec (decodeBytes (memRead s.mem 0) (memRead s.mem 1) (memRead s.mem 2)) (resetCore s)

/-- Z, N, H and C are the bits 0x80, 0x40, 0x20 and 0x10 of F; setting a flag makes it 1, resetting it makes it 0, and neither changes the test of another flag. -/
def Obligations.FlagAccessDisturbsNoOtherFlag : Prop :=
  (∀ s : State, (readF s).getLsbD 7 = testFlag .z s.flags ∧ (readF s).getLsbD 6 = testFlag .n s.flags ∧
      (readF s).getLsbD 5 = testFlag .h s.flags ∧ (readF s).getLsbD 4 = testFlag .c s.flags ∧
      (testFlag .z s.flags = true ↔ readF s &&& 0x80 = 0x80) ∧ (testFlag .n s.flags = true ↔ readF s &&& 0x40 = 0x40) ∧
      (testFlag .h s.flags = true ↔ readF s &&& 0x20 = 0x20) ∧ (testFlag .c s.flags = true ↔ readF s &&& 0x10 = 0x10)) ∧
  ∀ (f : Flag) (fs : Flags), testFlag f (setFlag f fs) = true ∧ testFlag f (resetFlag f fs) = false ∧
    ∀ g : Flag, g ≠ f → testFlag g (setFlag f fs) = testFlag g fs ∧ testFlag g (resetFlag f fs) = testFlag g fs

/-- In every state the low four bits of F read as zero, and after a 16-bit write of AF or a byte write of F the register reads as the written value with those bits cleared, nothing but A and F, or nothing but F, changed. That the bits are hardwired is the decision D17 of the spec. -/
def Obligations.LowNibbleOfFIsAlwaysZero : Prop :=
  (∀ s : State, readF s &&& 0x0F = 0 ∧ read16 .af s &&& 0x000F = 0) ∧
  (∀ (s : State) (v : Word), read16 .af (write16 .af v s) = v &&& 0xFFF0 ∧
    write16 .af v s = { s with a := (write16 .af v s).a, flags := (write16 .af v s).flags }) ∧
  ∀ (s : State) (v : Byte), readF (writeF v s) = v &&& 0xF0 ∧ writeF v s = { s with flags := (writeF v s).flags }

/-- After a write of a half the pair reads as that half and the old other half; a write of BC, DE, HL or AF is a write of its high byte to the one half and of its low byte to the other, and the pair then reads as written (AF with its low four bits cleared); a write of a half, F among them, changes no other half, and neither SP, PC, the memory nor, but for a write of F, any flag. That F discards its low four bits on a write is the decision D17 of the spec. -/
def Obligations.PairAndHalvesAreOneStorage : Prop :=
  ∀ (s : State) (v : Byte) (w : Word),
    read16 .bc (write8 .b v s) = joinBytes v s.c ∧ read16 .bc (write8 .c v s) = joinBytes s.b v ∧
    read16 .de (write8 .d v s) = joinBytes v s.e ∧ read16 .de (write8 .e v s) = joinBytes s.d v ∧
    read16 .hl (write8 .h v s) = joinBytes v s.l ∧ read16 .hl (write8 .l v s) = joinBytes s.h v ∧
    read16 .af (write8 .a v s) = joinBytes v (readF s) ∧ read16 .af (writeF v s) = joinBytes s.a (v &&& 0xF0) ∧
    read16 .bc (write16 .bc w s) = w ∧ write16 .bc w s = write8 .b (hiByte w) (write8 .c (loByte w) s) ∧
    read16 .de (write16 .de w s) = w ∧ write16 .de w s = write8 .d (hiByte w) (write8 .e (loByte w) s) ∧
    read16 .hl (write16 .hl w s) = w ∧ write16 .hl w s = write8 .h (hiByte w) (write8 .l (loByte w) s) ∧
    read16 .af (write16 .af w s) = w &&& 0xFFF0 ∧ write16 .af w s = write8 .a (hiByte w) (writeF (loByte w) s) ∧
    (∀ q r : R8, read8 q (write8 r v s) = if q = r then v else read8 q s) ∧
    (∀ r : R8, (write8 r v s).flags = s.flags ∧ (write8 r v s).sp = s.sp ∧ (write8 r v s).pc = s.pc ∧
      (write8 r v s).mem = s.mem ∧ (write8 r v s).report = s.report) ∧
    writeF v s = { s with flags := (writeF v s).flags } ∧
    (joinBytes (hiByte w) (loByte w)).toNat = w.toNat ∧ (joinBytes v (loByte w)).toNat = v.toNat * 256 + w.toNat % 256

/-- xor8 is the bitwise exclusive-or with Z told by a zero result and N, H, C zero; bit_test gives Z exactly when the tested bit is 0, N zero, H one and C as before, for every bit index and byte; set and reset of one flag act on its bit of F (7, 6, 5, 4 for Z, N, H, C) alone, and its test reads that bit. -/
def Obligations.AluFlagsComputeTheFlagBytes : Prop :=
  (∀ x y : Byte, xor8 x y = x ^^^ y ∧ (testFlag .z (xorFlags x y) = true ↔ x ^^^ y = 0) ∧
      testFlag .n (xorFlags x y) = false ∧ testFlag .h (xorFlags x y) = false ∧ testFlag .c (xorFlags x y) = false) ∧
  (∀ (n : BitVec 3) (v : Byte) (fs : Flags),
      (testFlag .z (bitTestFlags n v fs) = true ↔ v.getLsbD n.toNat = false) ∧
      testFlag .n (bitTestFlags n v fs) = false ∧ testFlag .h (bitTestFlags n v fs) = true ∧
      testFlag .c (bitTestFlags n v fs) = testFlag .c fs) ∧
  ∀ fs : Flags,
    flagsToByte (setFlag .z fs) = flagsToByte fs ||| 0x80 ∧ flagsToByte (resetFlag .z fs) = flagsToByte fs &&& 0x7F ∧
    flagsToByte (setFlag .n fs) = flagsToByte fs ||| 0x40 ∧ flagsToByte (resetFlag .n fs) = flagsToByte fs &&& 0xBF ∧
    flagsToByte (setFlag .h fs) = flagsToByte fs ||| 0x20 ∧ flagsToByte (resetFlag .h fs) = flagsToByte fs &&& 0xDF ∧
    flagsToByte (setFlag .c fs) = flagsToByte fs ||| 0x10 ∧ flagsToByte (resetFlag .c fs) = flagsToByte fs &&& 0xEF ∧
    testFlag .z fs = (flagsToByte fs).getLsbD 7 ∧ testFlag .n fs = (flagsToByte fs).getLsbD 6 ∧
    testFlag .h fs = (flagsToByte fs).getLsbD 5 ∧ testFlag .c fs = (flagsToByte fs).getLsbD 4
end

