-- ==== Sys2Proof/Laws/Flags.lean ====
section
/-! SUPPORT. The two views of `F`, as four flags and as a byte. -/

namespace Sys2Proof.Machine

@[simp] theorem flagsOfByte_flagsToByte (f : Flags) : flagsOfByte (flagsToByte f) = f := by
  obtain ⟨z, n, h, c⟩ := f
  cases z <;> cases n <;> cases h <;> cases c <;> rfl

/-- What a write of `F` keeps of a byte. -/
theorem flagsToByte_flagsOfByte (v : Byte) : flagsToByte (flagsOfByte v) = v &&& 0xF0 := by
  revert v; decide

@[simp] theorem testFlag_putFlag_same (f : Flag) (v : Bool) (fs : Flags) : testFlag f (putFlag f v fs) = v := by
  cases f <;> rfl

@[simp] theorem testFlag_putFlag_other {f g : Flag} (h : g ≠ f) (v : Bool) (fs : Flags) :
    testFlag g (putFlag f v fs) = testFlag g fs := by
  cases f <;> cases g <;> first | rfl | exact absurd rfl h

/-- The byte view of XOR's flags: exactly 0x80 or 0x00 (44_xor.md R150). -/
theorem xorFlags_toByte (x y : Byte) : flagsToByte (xorFlags x y) = if x ^^^ y = 0 then 0x80 else 0x00 := by
  have e : (x ^^^ y == 0) = decide (x ^^^ y = 0) := rfl
  simp only [xorFlags, xor8, e, flagsToByte]
  by_cases h : x ^^^ y = 0
  · rw [decide_eq_true h, if_pos h]; rfl
  · rw [decide_eq_false h, if_neg h]; rfl

end Sys2Proof.Machine
end

