-- ==== Sys2Proof/Laws/Memory.lean ====
section
/-! SUPPORT. The laws of the memory list: a read after a write, and that every memory operation keeps the canonical form. -/

namespace Sys2Proof.Machine

theorem wfFrom_mono {lo lo' : Nat} {m : Memory} (hle : lo' ≤ lo) (h : Memory.wfFrom lo m = true) :
    Memory.wfFrom lo' m = true := by
  cases m with
  | nil => rfl
  | cons c rest =>
    obtain ⟨k, v⟩ := c
    simp only [Memory.wfFrom, Bool.and_eq_true, decide_eq_true_eq] at h ⊢
    exact ⟨⟨⟨by omega, h.1.1.2⟩, h.1.2⟩, h.2⟩

/-- A canonical list says nothing of the addresses below its bound. -/
theorem lookup_below {lo a : Nat} {m : Memory} (h : Memory.wfFrom lo m = true) (ha : a < lo) :
    Memory.lookup m a = Config.unlistedByte := by
  induction m generalizing lo with
  | nil => rfl
  | cons c rest ih =>
    obtain ⟨k, v⟩ := c
    simp only [Memory.wfFrom, Bool.and_eq_true, decide_eq_true_eq] at h
    have hne : k ≠ a := by omega
    simp only [Memory.lookup, if_neg hne]
    exact ih h.2 (by omega)

/-- A write keeps the canonical form. -/
theorem wfFrom_store {lo a : Nat} {v : Byte} {m : Memory} (h : Memory.wfFrom lo m = true) (hlo : lo ≤ a)
    (ha : a < Config.memorySize) : Memory.wfFrom lo (Memory.store m a v) = true := by
  induction m generalizing lo with
  | nil =>
    by_cases hv : v = Config.unlistedByte <;> simp [Memory.store, Memory.wfFrom, hv, hlo, ha]
  | cons c rest ih =>
    obtain ⟨k, w⟩ := c
    have h0 := h
    simp only [Memory.wfFrom, Bool.and_eq_true, decide_eq_true_eq] at h
    obtain ⟨⟨⟨hk, hks⟩, hw⟩, hrest⟩ := h
    simp only [Memory.store]
    split
    · next hak =>
      split
      · exact h0
      · next hv => simp [Memory.wfFrom, hlo, ha, hv, hks, hw, hrest]; omega
    · next hak =>
      split
      · next hak' =>
        subst hak'
        split
        · exact wfFrom_mono (by omega) hrest
        · next hv => simp [Memory.wfFrom, hlo, ha, hv, hrest]
      · next hak' =>
        simp only [Memory.wfFrom, Bool.and_eq_true, decide_eq_true_eq]
        exact ⟨⟨⟨hk, hks⟩, hw⟩, ih hrest (by omega)⟩

/-- A read after a write gives the byte written there, and every other address reads as before. -/
theorem lookup_store {lo a : Nat} {v : Byte} {m : Memory} (h : Memory.wfFrom lo m = true) (x : Nat) :
    Memory.lookup (Memory.store m a v) x = if x = a then v else Memory.lookup m x := by
  induction m generalizing lo with
  | nil =>
    by_cases hv : v = Config.unlistedByte <;> by_cases hx : x = a <;> simp [Memory.store, Memory.lookup, hv, hx]
    exact fun hxa => absurd hxa.symm hx
  | cons c rest ih =>
    obtain ⟨k, w⟩ := c
    simp only [Memory.wfFrom, Bool.and_eq_true, decide_eq_true_eq] at h
    obtain ⟨⟨⟨hk, hks⟩, hw⟩, hrest⟩ := h
    simp only [Memory.store]
    split
    · next hak =>
      split
      · next hv =>
        by_cases hx : x = a
        · subst hx
          have hne : k ≠ x := by omega
          simp [Memory.lookup, hne, hv, lookup_below hrest (by omega : x < k + 1)]
        · simp [hx]
      · by_cases hx : x = a
        · simp [Memory.lookup, hx]
        · simp [Memory.lookup, hx, Ne.symm hx]
    · next hak =>
      split
      · next hak' =>
        subst hak'
        split
        · next hv =>
          by_cases hx : x = a
          · subst hx
            simp [hv, lookup_below hrest (by omega : x < x + 1)]
          · simp [Memory.lookup, hx, Ne.symm hx]
        · by_cases hx : x = a
          · simp [Memory.lookup, hx]
          · simp [Memory.lookup, hx, Ne.symm hx]
      · next hak' =>
        by_cases hkx : k = x
        · subst hkx
          have hne : k ≠ a := fun e => hak' e.symm
          simp [Memory.lookup, hne]
        · simp only [Memory.lookup, if_neg hkx]
          exact ih hrest

/-- A write at any address keeps the canonical form. -/
theorem memWrite_wf {m : Memory} (h : m.wf = true) (a : Word) (v : Byte) : Memory.wf (memWrite m a v) = true :=
  wfFrom_store h (Nat.zero_le _) a.isLt

/-- `MemRead` after `MemWrite` (20_memory.md R60, R67). -/
theorem memRead_memWrite {m : Memory} (h : m.wf = true) (a : Word) (v : Byte) (x : Word) :
    memRead (memWrite m a v) x = if x = a then v else memRead m x := by
  simp only [memRead, memWrite, lookup_store h, BitVec.toNat_inj]

theorem imageCells_wf (image : Word → Byte) (n : Nat) (hn : n ≤ Config.memorySize) (above : Memory)
    (h : Memory.wfFrom n above = true) : Memory.wf (imageCells image n above) = true := by
  induction n generalizing above with
  | zero => exact h
  | succ k ih =>
    simp only [imageCells]
    refine ih (by omega) _ ?_
    split
    · exact wfFrom_mono (by omega) h
    · next hv =>
      have hk : k < Config.memorySize := by omega
      simp [Memory.wfFrom, hk, hv, h]

/-- The memory of an image has the canonical form. -/
theorem memoryOfImage_wf (image : Word → Byte) : (memoryOfImage image).wf = true := by
  unfold memoryOfImage
  exact imageCells_wf image _ (Nat.le_refl _) [] rfl

/-- The cells of an image below `n` read as the image, the addresses from `n` on as before. -/
theorem lookup_imageCells (image : Word → Byte) (n : Nat) (hn : n ≤ Config.memorySize) (above : Memory)
    (h : Memory.wfFrom n above = true) (a : Nat) :
    Memory.lookup (imageCells image n above) a = if a < n then image (BitVec.ofNat 16 a) else Memory.lookup above a := by
  induction n generalizing above with
  | zero => rfl
  | succ k ih =>
    have hk : k < Config.memorySize := by omega
    simp only [imageCells]
    split
    · next hv =>
      rw [ih (by omega) _ (wfFrom_mono (by omega) h)]
      by_cases hak : a < k
      · rw [if_pos hak, if_pos (by omega)]
      · rw [if_neg hak]
        by_cases hak' : a = k
        · subst hak'
          rw [if_pos (by omega), lookup_below h (by omega), hv]
        · rw [if_neg (by omega)]
    · next hv =>
      rw [ih (by omega) _ (by simp [Memory.wfFrom, hk, hv, h])]
      by_cases hak : a < k
      · rw [if_pos hak, if_pos (by omega)]
      · rw [if_neg hak]
        by_cases hak' : a = k
        · subst hak'
          rw [if_pos (by omega)]
          exact if_pos rfl
        · rw [if_neg (by omega)]
          exact if_neg fun e => hak' e.symm

/-- Canonical lists that read alike at every address of the memory are the same list. -/
theorem wfFrom_ext {lo : Nat} {m m' : Memory} (h : Memory.wfFrom lo m = true) (h' : Memory.wfFrom lo m' = true)
    (e : ∀ a < Config.memorySize, Memory.lookup m a = Memory.lookup m' a) : m = m' := by
  induction m generalizing lo m' with
  | nil =>
    cases m' with
    | nil => rfl
    | cons c rest =>
      obtain ⟨k, v⟩ := c
      simp only [Memory.wfFrom, Bool.and_eq_true, decide_eq_true_eq, bne_iff_ne] at h'
      exact absurd ((e k h'.1.1.2).symm.trans rfl) (by simpa [Memory.lookup] using h'.1.2)
  | cons c rest ih =>
    obtain ⟨k, v⟩ := c
    have h0 := h
    simp only [Memory.wfFrom, Bool.and_eq_true, decide_eq_true_eq, bne_iff_ne] at h
    obtain ⟨⟨⟨hk, hks⟩, hv⟩, hr⟩ := h
    cases m' with
    | nil => exact absurd (e k hks) (by simpa [Memory.lookup] using hv)
    | cons c' rest' =>
      obtain ⟨k', v'⟩ := c'
      simp only [Memory.wfFrom, Bool.and_eq_true, decide_eq_true_eq, bne_iff_ne] at h'
      obtain ⟨⟨⟨hk', hks'⟩, hv'⟩, hr'⟩ := h'
      have hkk : k = k' := by
        rcases Nat.lt_trichotomy k k' with hlt | heq | hgt
        · have := e k hks
          simp only [Memory.lookup, if_true, if_neg (show k' ≠ k by omega), lookup_below hr' (show k < k' + 1 by omega)] at this
          exact absurd this hv
        · exact heq
        · have := e k' hks'
          simp only [Memory.lookup, if_true, if_neg (show k ≠ k' by omega), lookup_below hr (show k' < k + 1 by omega)] at this
          exact absurd this.symm hv'
      subst hkk
      have hvv : v = v' := by simpa [Memory.lookup] using e k hks
      subst hvv
      refine congrArg (List.cons (k, v)) (ih hr hr' fun a ha => ?_)
      by_cases hka : k = a
      · subst hka
        rw [lookup_below hr (by omega), lookup_below hr' (by omega)]
      · simpa only [Memory.lookup, if_neg hka] using e a ha

/-- Canonical memories that read alike are equal (10_state.md R19). -/
theorem memory_ext {m m' : Memory} (h : m.wf = true) (h' : m'.wf = true) (e : ∀ x : Word, memRead m x = memRead m' x) :
    m = m' := by
  refine wfFrom_ext h h' fun a ha => ?_
  have := e (BitVec.ofNat 16 a)
  rwa [memRead, memRead, BitVec.toNat_ofNat, Nat.mod_eq_of_lt (show a < 2 ^ 16 from ha)] at this

/-- The host's load of a table word keeps the canonical form. -/
theorem storeTableWord_wf {s : State} (h : s.mem.wf = true) (nbits w : Nat) :
    (storeTableWord nbits w s).mem.wf = true :=
  memWrite_wf (memWrite_wf (memWrite_wf h _ _) _ _) _ _

end Sys2Proof.Machine
end

