-- ==== Sys2Proof/Laws/State.lean ====
section
/-! SUPPORT. What each named update of the state does to each field, so that no later proof unfolds a record update. -/

namespace Sys2Proof.Machine

@[simp] theorem complete_a (n : Word) (s : State) : (complete n s).a = s.a := rfl
@[simp] theorem complete_flags (n : Word) (s : State) : (complete n s).flags = s.flags := rfl
@[simp] theorem complete_b (n : Word) (s : State) : (complete n s).b = s.b := rfl
@[simp] theorem complete_c (n : Word) (s : State) : (complete n s).c = s.c := rfl
@[simp] theorem complete_d (n : Word) (s : State) : (complete n s).d = s.d := rfl
@[simp] theorem complete_e (n : Word) (s : State) : (complete n s).e = s.e := rfl
@[simp] theorem complete_h (n : Word) (s : State) : (complete n s).h = s.h := rfl
@[simp] theorem complete_l (n : Word) (s : State) : (complete n s).l = s.l := rfl
@[simp] theorem complete_sp (n : Word) (s : State) : (complete n s).sp = s.sp := rfl
@[simp] theorem complete_pc (n : Word) (s : State) : (complete n s).pc = s.pc + n := rfl
@[simp] theorem complete_mem (n : Word) (s : State) : (complete n s).mem = s.mem := rfl
@[simp] theorem complete_report (n : Word) (s : State) : (complete n s).report = some .ok := rfl

@[simp] theorem writeF_a (v : Byte) (s : State) : (writeF v s).a = s.a := rfl
@[simp] theorem writeF_flags (v : Byte) (s : State) : (writeF v s).flags = flagsOfByte v := rfl
@[simp] theorem writeF_b (v : Byte) (s : State) : (writeF v s).b = s.b := rfl
@[simp] theorem writeF_c (v : Byte) (s : State) : (writeF v s).c = s.c := rfl
@[simp] theorem writeF_d (v : Byte) (s : State) : (writeF v s).d = s.d := rfl
@[simp] theorem writeF_e (v : Byte) (s : State) : (writeF v s).e = s.e := rfl
@[simp] theorem writeF_h (v : Byte) (s : State) : (writeF v s).h = s.h := rfl
@[simp] theorem writeF_l (v : Byte) (s : State) : (writeF v s).l = s.l := rfl
@[simp] theorem writeF_sp (v : Byte) (s : State) : (writeF v s).sp = s.sp := rfl
@[simp] theorem writeF_pc (v : Byte) (s : State) : (writeF v s).pc = s.pc := rfl
@[simp] theorem writeF_mem (v : Byte) (s : State) : (writeF v s).mem = s.mem := rfl
@[simp] theorem writeF_report (v : Byte) (s : State) : (writeF v s).report = s.report := rfl

@[simp] theorem withMemory_a (m : Memory) (s : State) : (withMemory m s).a = s.a := rfl
@[simp] theorem withMemory_flags (m : Memory) (s : State) : (withMemory m s).flags = s.flags := rfl
@[simp] theorem withMemory_b (m : Memory) (s : State) : (withMemory m s).b = s.b := rfl
@[simp] theorem withMemory_c (m : Memory) (s : State) : (withMemory m s).c = s.c := rfl
@[simp] theorem withMemory_d (m : Memory) (s : State) : (withMemory m s).d = s.d := rfl
@[simp] theorem withMemory_e (m : Memory) (s : State) : (withMemory m s).e = s.e := rfl
@[simp] theorem withMemory_h (m : Memory) (s : State) : (withMemory m s).h = s.h := rfl
@[simp] theorem withMemory_l (m : Memory) (s : State) : (withMemory m s).l = s.l := rfl
@[simp] theorem withMemory_sp (m : Memory) (s : State) : (withMemory m s).sp = s.sp := rfl
@[simp] theorem withMemory_pc (m : Memory) (s : State) : (withMemory m s).pc = s.pc := rfl
@[simp] theorem withMemory_mem (m : Memory) (s : State) : (withMemory m s).mem = m := rfl
@[simp] theorem withMemory_report (m : Memory) (s : State) : (withMemory m s).report = s.report := rfl

@[simp] theorem hostPoke_a (a : Word) (v : Byte) (s : State) : (hostPoke a v s).a = s.a := rfl
@[simp] theorem hostPoke_flags (a : Word) (v : Byte) (s : State) : (hostPoke a v s).flags = s.flags := rfl
@[simp] theorem hostPoke_b (a : Word) (v : Byte) (s : State) : (hostPoke a v s).b = s.b := rfl
@[simp] theorem hostPoke_c (a : Word) (v : Byte) (s : State) : (hostPoke a v s).c = s.c := rfl
@[simp] theorem hostPoke_d (a : Word) (v : Byte) (s : State) : (hostPoke a v s).d = s.d := rfl
@[simp] theorem hostPoke_e (a : Word) (v : Byte) (s : State) : (hostPoke a v s).e = s.e := rfl
@[simp] theorem hostPoke_h (a : Word) (v : Byte) (s : State) : (hostPoke a v s).h = s.h := rfl
@[simp] theorem hostPoke_l (a : Word) (v : Byte) (s : State) : (hostPoke a v s).l = s.l := rfl
@[simp] theorem hostPoke_sp (a : Word) (v : Byte) (s : State) : (hostPoke a v s).sp = s.sp := rfl
@[simp] theorem hostPoke_pc (a : Word) (v : Byte) (s : State) : (hostPoke a v s).pc = s.pc := rfl
@[simp] theorem hostPoke_mem (a : Word) (v : Byte) (s : State) : (hostPoke a v s).mem = memWrite s.mem a v := rfl
@[simp] theorem hostPoke_report (a : Word) (v : Byte) (s : State) : (hostPoke a v s).report = s.report := rfl

@[simp] theorem resetCore_a (s : State) : (resetCore s).a = 0 := rfl
@[simp] theorem resetCore_flags (s : State) : (resetCore s).flags = ⟨false, false, false, false⟩ := rfl
@[simp] theorem resetCore_b (s : State) : (resetCore s).b = 0 := rfl
@[simp] theorem resetCore_c (s : State) : (resetCore s).c = 0 := rfl
@[simp] theorem resetCore_d (s : State) : (resetCore s).d = 0 := rfl
@[simp] theorem resetCore_e (s : State) : (resetCore s).e = 0 := rfl
@[simp] theorem resetCore_h (s : State) : (resetCore s).h = 0 := rfl
@[simp] theorem resetCore_l (s : State) : (resetCore s).l = 0 := rfl
@[simp] theorem resetCore_sp (s : State) : (resetCore s).sp = 0 := rfl
@[simp] theorem resetCore_pc (s : State) : (resetCore s).pc = 0 := rfl
@[simp] theorem resetCore_mem (s : State) : (resetCore s).mem = s.mem := rfl
@[simp] theorem resetCore_report (s : State) : (resetCore s).report = none := rfl

@[simp] theorem storeAtHl_a (k : Word) (s : State) : (storeAtHl k s).a = s.a := rfl
@[simp] theorem storeAtHl_flags (k : Word) (s : State) : (storeAtHl k s).flags = s.flags := rfl
@[simp] theorem storeAtHl_b (k : Word) (s : State) : (storeAtHl k s).b = s.b := rfl
@[simp] theorem storeAtHl_c (k : Word) (s : State) : (storeAtHl k s).c = s.c := rfl
@[simp] theorem storeAtHl_d (k : Word) (s : State) : (storeAtHl k s).d = s.d := rfl
@[simp] theorem storeAtHl_e (k : Word) (s : State) : (storeAtHl k s).e = s.e := rfl
@[simp] theorem storeAtHl_h (k : Word) (s : State) : (storeAtHl k s).h = hiByte (read16 .hl s + k) := rfl
@[simp] theorem storeAtHl_l (k : Word) (s : State) : (storeAtHl k s).l = loByte (read16 .hl s + k) := rfl
@[simp] theorem storeAtHl_sp (k : Word) (s : State) : (storeAtHl k s).sp = s.sp := rfl
@[simp] theorem storeAtHl_pc (k : Word) (s : State) : (storeAtHl k s).pc = s.pc := rfl
@[simp] theorem storeAtHl_mem (k : Word) (s : State) : (storeAtHl k s).mem = memWrite s.mem (storeAddress s) s.a := rfl
@[simp] theorem storeAtHl_report (k : Word) (s : State) : (storeAtHl k s).report = s.report := rfl

/-! `write8` and `write16` change no field but the halves they name. -/

@[simp] theorem write8_flags (r : R8) (v : Byte) (s : State) : (write8 r v s).flags = s.flags := by cases r <;> rfl
@[simp] theorem write8_sp (r : R8) (v : Byte) (s : State) : (write8 r v s).sp = s.sp := by cases r <;> rfl
@[simp] theorem write8_pc (r : R8) (v : Byte) (s : State) : (write8 r v s).pc = s.pc := by cases r <;> rfl
@[simp] theorem write8_mem (r : R8) (v : Byte) (s : State) : (write8 r v s).mem = s.mem := by cases r <;> rfl
@[simp] theorem write8_report (r : R8) (v : Byte) (s : State) : (write8 r v s).report = s.report := by cases r <;> rfl

theorem write8_b_eq (v : Byte) (s : State) : write8 .b v s = { s with b := v } := rfl
theorem write8_c_eq (v : Byte) (s : State) : write8 .c v s = { s with c := v } := rfl
theorem write8_d_eq (v : Byte) (s : State) : write8 .d v s = { s with d := v } := rfl
theorem write8_e_eq (v : Byte) (s : State) : write8 .e v s = { s with e := v } := rfl
theorem write8_h_eq (v : Byte) (s : State) : write8 .h v s = { s with h := v } := rfl
theorem write8_l_eq (v : Byte) (s : State) : write8 .l v s = { s with l := v } := rfl
theorem write8_a_eq (v : Byte) (s : State) : write8 .a v s = { s with a := v } := rfl

@[simp] theorem write16_mem (r : Pair) (v : Word) (s : State) : (write16 r v s).mem = s.mem := by cases r <;> rfl
@[simp] theorem write16_report (r : Pair) (v : Word) (s : State) : (write16 r v s).report = s.report := by cases r <;> rfl

theorem write16_bc_eq (v : Word) (s : State) : write16 .bc v s = { s with b := hiByte v, c := loByte v } := rfl
theorem write16_de_eq (v : Word) (s : State) : write16 .de v s = { s with d := hiByte v, e := loByte v } := rfl
theorem write16_hl_eq (v : Word) (s : State) : write16 .hl v s = { s with h := hiByte v, l := loByte v } := rfl
theorem write16_sp_eq (v : Word) (s : State) : write16 .sp v s = { s with sp := v } := rfl
theorem write16_pc_eq (v : Word) (s : State) : write16 .pc v s = { s with pc := v } := rfl

/-! The report of an unassigned opcode changes `PC` and the result alone. -/

@[simp] theorem reportUnimplemented_a (p : Page) (v : Byte) (s : State) : (reportUnimplemented p v s).a = s.a := rfl
@[simp] theorem reportUnimplemented_flags (p : Page) (v : Byte) (s : State) : (reportUnimplemented p v s).flags = s.flags := rfl
@[simp] theorem reportUnimplemented_b (p : Page) (v : Byte) (s : State) : (reportUnimplemented p v s).b = s.b := rfl
@[simp] theorem reportUnimplemented_c (p : Page) (v : Byte) (s : State) : (reportUnimplemented p v s).c = s.c := rfl
@[simp] theorem reportUnimplemented_d (p : Page) (v : Byte) (s : State) : (reportUnimplemented p v s).d = s.d := rfl
@[simp] theorem reportUnimplemented_e (p : Page) (v : Byte) (s : State) : (reportUnimplemented p v s).e = s.e := rfl
@[simp] theorem reportUnimplemented_h (p : Page) (v : Byte) (s : State) : (reportUnimplemented p v s).h = s.h := rfl
@[simp] theorem reportUnimplemented_l (p : Page) (v : Byte) (s : State) : (reportUnimplemented p v s).l = s.l := rfl
@[simp] theorem reportUnimplemented_sp (p : Page) (v : Byte) (s : State) : (reportUnimplemented p v s).sp = s.sp := rfl
@[simp] theorem reportUnimplemented_mem (p : Page) (v : Byte) (s : State) : (reportUnimplemented p v s).mem = s.mem := rfl

@[simp] theorem reportUnimplemented_primary_pc (v : Byte) (s : State) :
    (reportUnimplemented .primary v s).pc = s.pc + 1 := rfl
@[simp] theorem reportUnimplemented_extended_pc (v : Byte) (s : State) :
    (reportUnimplemented .extended v s).pc = s.pc + 1 + 1 := rfl

end Sys2Proof.Machine
end

