-- ==== Sys2Proof/Laws/Ops.lean ====
section
/-! SUPPORT. One specification lemma for each shared operation over registers, and for the two halves of a word. -/

namespace Sys2Proof

@[simp] theorem joinBytes_hi_lo (w : Word) : joinBytes (hiByte w) (loByte w) = w := by
  apply BitVec.eq_of_toNat_eq
  have := w.isLt
  simp only [joinBytes, hiByte, loByte, BitVec.toNat_append, BitVec.extractLsb'_toNat, Nat.shiftRight_zero]
  rw [Nat.shiftRight_eq_div_pow, ← Nat.shiftLeft_add_eq_or_of_lt (Nat.mod_lt _ (by decide)), Nat.shiftLeft_eq]
  omega

@[simp] theorem hiByte_joinBytes (hi lo : Byte) : hiByte (joinBytes hi lo) = hi := by
  apply BitVec.eq_of_getLsbD_eq
  intro i hi'
  simp only [hiByte, joinBytes, BitVec.getLsbD_extractLsb', BitVec.getLsbD_append]
  rw [if_neg (by omega)]
  simp [hi']

@[simp] theorem loByte_joinBytes (hi lo : Byte) : loByte (joinBytes hi lo) = lo := by
  apply BitVec.eq_of_getLsbD_eq
  intro i hi'
  simp only [loByte, joinBytes, BitVec.getLsbD_extractLsb', BitVec.getLsbD_append]
  rw [if_pos (by omega)]
  simp [hi']

namespace Machine

/-- A half reads as written, every other half as before (10_state.md R26). -/
theorem read8_write8 (q r : R8) (v : Byte) (s : State) :
    read8 q (write8 r v s) = if q = r then v else read8 q s := by
  cases q <;> cases r <;> rfl

/-- A pair reads as written, but for the four bits of `AF` that have no storage (10_state.md R12, R26). -/
theorem read16_write16 (r : Pair) (v : Word) (s : State) :
    read16 r (write16 r v s) = if r = .af then joinBytes (hiByte v) (loByte v &&& 0xF0) else v := by
  cases r <;> simp [read16, write16, readF, flagsToByte_flagsOfByte]

/-- The two stores: the byte at `HL` becomes `A`, every other byte reads as before, `HL` moves (43_st_hl_postmod.md R140). -/
theorem storeAtHl_spec {s : State} (h : s.mem.wf = true) (k x : Word) :
    memRead (storeAtHl k s).mem x = (if x = storeAddress s then s.a else memRead s.mem x) ∧
    read16 .hl (storeAtHl k s) = read16 .hl s + k := by
  refine ⟨?_, ?_⟩
  · simp [memRead_memWrite h]
  · simp [read16]

end Machine

end Sys2Proof
end

