-- ==== Sys2Proof/Laws/Step.lean ====
section
/-! SUPPORT. What one step can do, said once. -/

namespace Sys2Proof.Machine

/-- A step is the execution of the instruction at `PC`. -/
theorem step_eq (s : State) : step s = exec (fetchInstr s) s := rfl

/-- The six things an instruction can do; every invariant of `exec` is a case analysis on these. -/
theorem exec_cases {i : Instr} {s t : State} (h : exec i s = .next t) :
    (∃ r imm, t = loadPair r imm s) ∨ (∃ r imm, t = loadHalf r imm s) ∨
    (∃ k, t = storePostModify k s) ∨ (∃ r, t = xorWith r s) ∨ (∃ n r, t = bitTest n r s) ∨
    (∃ p op, t = reportUnimplemented p op s) := by
  cases i <;> have e := (Host.Outcome.next.inj h).symm <;>
    first
    | exact .inl ⟨_, _, e⟩
    | exact .inr (.inl ⟨_, _, e⟩)
    | exact .inr (.inr (.inl ⟨_, e⟩))
    | exact .inr (.inr (.inr (.inl ⟨_, e⟩)))
    | exact .inr (.inr (.inr (.inr (.inl ⟨_, _, e⟩))))
    | exact .inr (.inr (.inr (.inr (.inr ⟨_, _, e⟩))))

/-- The same of a step. -/
theorem step_cases {s t : State} (h : step s = .next t) :
    (∃ r imm, t = loadPair r imm s) ∨ (∃ r imm, t = loadHalf r imm s) ∨
    (∃ k, t = storePostModify k s) ∨ (∃ r, t = xorWith r s) ∨ (∃ n r, t = bitTest n r s) ∨
    (∃ p op, t = reportUnimplemented p op s) :=
  exec_cases h

/-- A run takes its first step and goes on from there. -/
theorem run_of_step {M : Host.Core} {s t : M.State} (k : Nat) (h : M.step s = .next t) :
    Host.Core.run M (k + 1) s = Host.Core.run M k t := by
  rw [Host.Core.run, h]

/-- The same of this machine. -/
theorem run_core_of_step {s t : State} (k : Nat) (h : step s = .next t) :
    Host.Core.run Sys2Proof.core (k + 1) s = Host.Core.run Sys2Proof.core k t :=
  run_of_step (M := Sys2Proof.core) k h

end Sys2Proof.Machine
end

