-- ==== Sys2Proof/Tests/Slice0.lean ====
section
/-! SUPPORT. The model's own tests: ill-formed terms, decoding of words written out from 30_encoding.md and 45_bit.md,
single steps with the results of 95_test_vectors.md, and for each obligation with hypotheses a case that meets them. -/

namespace Sys2Proof.Tests

open Sys2Proof.Machine

/-! Helpers. -/

/-- A memory with the bytes `bs` from the address `a` on. -/
def load (a : Word) (bs : List Byte) (m : Memory) : Memory :=
  match bs with
  | [] => m
  | b :: rest => load (a + 1) rest (memWrite m a b)

/-- A state given as the test vectors give it: the six registers, and `bs` at `PC`. -/
def machine (af bc de hl sp pc : Word) (bs : List Byte) (m : Memory) : State :=
  { write16 .af af (write16 .bc bc (write16 .de de (write16 .hl hl State.reset))) with
    sp := sp, pc := pc, mem := load pc bs m }

/-- The state after reset with `bs` at 0x0000. -/
def placed (bs : List Byte) : State := machine 0 0 0 0 0 0 bs []

/-- The next state's `AF BC DE HL SP PC` and its step's result. -/
def shown (o : Host.Outcome State Fault Refusal) : Option (List Word × Option StepResult) :=
  match o with
  | .next t => some ([Pair.af, .bc, .de, .hl, .sp, .pc].map (read16 · t), t.report)
  | .fault _ => none
  | .refused _ => none

/-- A byte of the next state's memory. -/
def byteAfter (o : Host.Outcome State Fault Refusal) (a : Word) : Option Byte :=
  match o with
  | .next t => some (memRead t.mem a)
  | .fault _ => none
  | .refused _ => none

/-- What a list of bytes decodes to. -/
def decoded (bs : List Byte) : Option (Instr × List Byte) :=
  match decode bs with
  | .ok r => some r
  | .error _ => none

/-! WellFormed: an ill-formed term for each check. -/

theorem test_wf_refuses_an_assigned_primary_byte : (Instr.unimplPrimary 0x31).wf = false := by decide
theorem test_wf_refuses_the_prefix_byte : (Instr.unimplPrimary 0xCB).wf = false := by decide
theorem test_wf_refuses_a_bit_opcode : (Instr.unimplExtended 0x7C).wf = false := by decide
theorem test_wf_admits_the_neighbours :
    (Instr.unimplPrimary 0x30).wf = true ∧ (Instr.unimplPrimary 0xAE).wf = true ∧ (Instr.unimplExtended 0x46).wf = true ∧
    (Instr.unimplExtended 0x3F).wf = true ∧ (Instr.unimplExtended 0x80).wf = true := by decide

/-! Decoding: the words are written from the opcode pages, 30_encoding.md R85 and R86, and the BIT lists R161 to R167. -/

theorem test_decode_load_pair :
    decoded [0x01, 0x34, 0x12] = some (.ldBcD16 0x1234, []) ∧ decoded [0x11, 0x34, 0x12] = some (.ldDeD16 0x1234, []) ∧
    decoded [0x21, 0x34, 0x12] = some (.ldHlD16 0x1234, []) ∧ decoded [0x31, 0x34, 0x12, 0xAF] = some (.ldSpD16 0x1234, [0xAF]) := by
  decide

theorem test_decode_load_half :
    decoded [0x06, 0x9A] = some (.ldBD8 0x9A, []) ∧ decoded [0x0E, 0x9A] = some (.ldCD8 0x9A, []) ∧
    decoded [0x16, 0x9A] = some (.ldDD8 0x9A, []) ∧ decoded [0x1E, 0x9A] = some (.ldED8 0x9A, []) ∧
    decoded [0x26, 0x9A] = some (.ldHD8 0x9A, []) ∧ decoded [0x2E, 0x9A] = some (.ldLD8 0x9A, []) ∧
    decoded [0x3E, 0x9A] = some (.ldAD8 0x9A, []) := by decide

theorem test_decode_stores : decoded [0x22, 0x01] = some (.ldHliA, [0x01]) ∧ decoded [0x32] = some (.ldHldA, []) := by decide

theorem test_decode_xor :
    decoded [0xA8] = some (.xorB, []) ∧ decoded [0xA9] = some (.xorC, []) ∧ decoded [0xAA] = some (.xorD, []) ∧
    decoded [0xAB] = some (.xorE, []) ∧ decoded [0xAC] = some (.xorH, []) ∧ decoded [0xAD] = some (.xorL, []) ∧
    decoded [0xAF] = some (.xorA, []) := by decide

theorem test_decode_bit_of_b :
    [0x40, 0x48, 0x50, 0x58, 0x60, 0x68, 0x70, 0x78].map decodeExtended =
      [.bit0B, .bit1B, .bit2B, .bit3B, .bit4B, .bit5B, .bit6B, .bit7B] := by decide

theorem test_decode_bit_of_c :
    [0x41, 0x49, 0x51, 0x59, 0x61, 0x69, 0x71, 0x79].map decodeExtended =
      [.bit0C, .bit1C, .bit2C, .bit3C, .bit4C, .bit5C, .bit6C, .bit7C] := by decide

theorem test_decode_bit_of_d :
    [0x42, 0x4A, 0x52, 0x5A, 0x62, 0x6A, 0x72, 0x7A].map decodeExtended =
      [.bit0D, .bit1D, .bit2D, .bit3D, .bit4D, .bit5D, .bit6D, .bit7D] := by decide

theorem test_decode_bit_of_e :
    [0x43, 0x4B, 0x53, 0x5B, 0x63, 0x6B, 0x73, 0x7B].map decodeExtended =
      [.bit0E, .bit1E, .bit2E, .bit3E, .bit4E, .bit5E, .bit6E, .bit7E] := by decide

theorem test_decode_bit_of_h :
    [0x44, 0x4C, 0x54, 0x5C, 0x64, 0x6C, 0x74, 0x7C].map decodeExtended =
      [.bit0H, .bit1H, .bit2H, .bit3H, .bit4H, .bit5H, .bit6H, .bit7H] := by decide

theorem test_decode_bit_of_l :
    [0x45, 0x4D, 0x55, 0x5D, 0x65, 0x6D, 0x75, 0x7D].map decodeExtended =
      [.bit0L, .bit1L, .bit2L, .bit3L, .bit4L, .bit5L, .bit6L, .bit7L] := by decide

theorem test_decode_bit_of_a :
    [0x47, 0x4F, 0x57, 0x5F, 0x67, 0x6F, 0x77, 0x7F].map decodeExtended =
      [.bit0A, .bit1A, .bit2A, .bit3A, .bit4A, .bit5A, .bit6A, .bit7A] := by decide

theorem test_decode_prefix_selects_the_extended_page :
    decoded [0xCB, 0x7C, 0xAF] = some (.bit7H, [0xAF]) ∧ decoded [0xCB, 0x40] = some (.bit0B, []) := by decide

theorem test_decode_unassigned :
    decoded [0x00] = some (.unimplPrimary 0x00, []) ∧ decoded [0x36, 0x55] = some (.unimplPrimary 0x36, [0x55]) ∧
    decoded [0xAE] = some (.unimplPrimary 0xAE, []) ∧ decoded [0xCB, 0x46] = some (.unimplExtended 0x46, []) ∧
    decoded [0xCB, 0xCB, 0x7C] = some (.unimplExtended 0xCB, [0x7C]) := by decide

theorem test_decode_truncated_is_rejected_by_name :
    (decode [] matches .error .noOpcode) = true ∧ (decode [0xCB] matches .error .noExtendedOpcode) = true ∧
    (decode [0x31, 0xFE] matches .error .noImmediate) = true := by decide

/-- The words of spec/opcode_table.json, bit by bit: a d16's high byte, its low byte, the opcode; 0xCB above the extended opcode. -/
theorem test_decode_table_words :
    decodeTableWord 24 0b00010010_00110100_00110001 = some (.ldSpD16 0x1234) ∧
    decodeTableWord 16 0b01011010_00111110 = some (.ldAD8 0x5A) ∧ decodeTableWord 8 0b00100010 = some .ldHliA ∧
    decodeTableWord 8 0b00110010 = some .ldHldA ∧ decodeTableWord 8 0b10101101 = some .xorL ∧
    decodeTableWord 16 0b11001011_01000000 = some .bit0B ∧ decodeTableWord 16 0b11001011_01111100 = some .bit7H ∧
    decodeTableWord 8 0b00110110 = some (.unimplPrimary 0x36) ∧
    decodeTableWord 16 0b11001011_10000000 = some (.unimplExtended 0x80) ∧ decodeTableWord 8 0b00000110 = some (.ldBD8 0x00) := by
  decide

theorem test_with_fetch_word_is_fetched :
    fetchInstr (State.reset.withFetchWord 16 0xCB7C) = .bit7H ∧ fetchInstr (State.reset.withFetchWord 24 0xFFFE31) = .ldSpD16 0xFFFE := by
  decide

/-! Single steps: the rows of 95_test_vectors.md section 2, under their own ids. -/

theorem test_v1_ld_bc_0x1234 :
    shown (step (placed [0x01, 0x34, 0x12])) =
      some ([0x0000, 0x1234, 0x0000, 0x0000, 0x0000, 0x0003], some .ok) := by decide

theorem test_v2_ld_de_0x0000 :
    shown (step (machine 0x0000 0x0000 0xFFFF 0x0000 0x0000 0x0000 [0x11, 0x00, 0x00] [])) =
      some ([0x0000, 0x0000, 0x0000, 0x0000, 0x0000, 0x0003], some .ok) := by decide

theorem test_v3_ld_hl_0xffff :
    shown (step (placed [0x21, 0xFF, 0xFF])) =
      some ([0x0000, 0x0000, 0x0000, 0xFFFF, 0x0000, 0x0003], some .ok) := by decide

theorem test_v4_ld_sp_0xabcd :
    shown (step (machine 0x12B0 0x0000 0x0000 0x0000 0x0000 0xFFFE [0x31, 0xCD, 0xAB] [])) =
      some ([0x12B0, 0x0000, 0x0000, 0x0000, 0xABCD, 0x0001], some .ok) := by decide

theorem test_v5_ld_hl_0x1122 :
    shown (step (machine 0x0000 0x0000 0x0000 0x0000 0x0000 0xFFFF [0x21, 0x22, 0x11] [])) =
      some ([0x0000, 0x0000, 0x0000, 0x1122, 0x0000, 0x0002], some .ok) := by decide

theorem test_v7_ld_b_0x12 :
    shown (step (machine 0x11F0 0x2233 0x4455 0x6677 0x0000 0x0000 [0x06, 0x12] [])) =
      some ([0x11F0, 0x1233, 0x4455, 0x6677, 0x0000, 0x0002], some .ok) := by decide

theorem test_v8_ld_c_0x34 :
    shown (step (machine 0x11F0 0x2233 0x4455 0x6677 0x0000 0x0000 [0x0E, 0x34] [])) =
      some ([0x11F0, 0x2234, 0x4455, 0x6677, 0x0000, 0x0002], some .ok) := by decide

theorem test_v9_ld_d_0x56 :
    shown (step (machine 0x11F0 0x2233 0x4455 0x6677 0x0000 0x0000 [0x16, 0x56] [])) =
      some ([0x11F0, 0x2233, 0x5655, 0x6677, 0x0000, 0x0002], some .ok) := by decide

theorem test_v10_ld_e_0x78 :
    shown (step (machine 0x11F0 0x2233 0x4455 0x6677 0x0000 0x0000 [0x1E, 0x78] [])) =
      some ([0x11F0, 0x2233, 0x4478, 0x6677, 0x0000, 0x0002], some .ok) := by decide

theorem test_v11_ld_h_0x9f :
    shown (step (machine 0x11F0 0x2233 0x4455 0x6677 0x0000 0x0000 [0x26, 0x9F] [])) =
      some ([0x11F0, 0x2233, 0x4455, 0x9F77, 0x0000, 0x0002], some .ok) := by decide

theorem test_v12_ld_l_0xff :
    shown (step (machine 0x11F0 0x2233 0x4455 0x6677 0x0000 0x0000 [0x2E, 0xFF] [])) =
      some ([0x11F0, 0x2233, 0x4455, 0x66FF, 0x0000, 0x0002], some .ok) := by decide

theorem test_v13_ld_a_0x5a :
    shown (step (machine 0x11F0 0x2233 0x4455 0x6677 0x0000 0x0000 [0x3E, 0x5A] [])) =
      some ([0x5AF0, 0x2233, 0x4455, 0x6677, 0x0000, 0x0002], some .ok) := by decide

theorem test_v14_ld_a_0x77 :
    shown (step (machine 0x0000 0x0000 0x0000 0x0000 0x0000 0xFFFF [0x3E, 0x77] [])) =
      some ([0x7700, 0x0000, 0x0000, 0x0000, 0x0000, 0x0001], some .ok) := by decide

theorem test_v15_unimpl_primary_0x36 :
    shown (step (machine 0x1200 0x0000 0x0000 0xC000 0x0000 0x0000 [0x36, 0x55] [])) =
      some ([0x1200, 0x0000, 0x0000, 0xC000, 0x0000, 0x0001], some (.unimplementedOpcode 0x36 0x0000 .primary)) ∧
    byteAfter (step (machine 0x1200 0x0000 0x0000 0xC000 0x0000 0x0000 [0x36, 0x55] [])) 0xC000 = some 0x00 := by decide

theorem test_v17_ld_hld_a :
    shown (step (machine 0x0080 0x0000 0x0000 0x9FFF 0x0000 0x0007 [0x32] [])) =
      some ([0x0080, 0x0000, 0x0000, 0x9FFE, 0x0000, 0x0008], some .ok) ∧
    byteAfter (step (machine 0x0080 0x0000 0x0000 0x9FFF 0x0000 0x0007 [0x32] [])) 0x9FFF = some 0x00 := by decide

theorem test_v18_ld_hli_a :
    shown (step (machine 0xEE00 0x0000 0x0000 0xFFFF 0x0000 0x0000 [0x22] [])) =
      some ([0xEE00, 0x0000, 0x0000, 0x0000, 0x0000, 0x0001], some .ok) ∧
    byteAfter (step (machine 0xEE00 0x0000 0x0000 0xFFFF 0x0000 0x0000 [0x22] [])) 0xFFFF = some 0xEE := by decide

theorem test_v19_ld_hld_a :
    shown (step (machine 0xEE00 0x0000 0x0000 0x0000 0x0000 0x0010 [0x32] (memWrite [] 0x0000 0x99))) =
      some ([0xEE00, 0x0000, 0x0000, 0xFFFF, 0x0000, 0x0011], some .ok) ∧
    byteAfter (step (machine 0xEE00 0x0000 0x0000 0x0000 0x0000 0x0010 [0x32] (memWrite [] 0x0000 0x99))) 0x0000 = some 0xEE := by decide

theorem test_v22_ld_hli_a :
    shown (step (machine 0xAF00 0x0000 0x0000 0x0040 0x0000 0x0040 [0x22] [])) =
      some ([0xAF00, 0x0000, 0x0000, 0x0041, 0x0000, 0x0041], some .ok) ∧
    byteAfter (step (machine 0xAF00 0x0000 0x0000 0x0040 0x0000 0x0040 [0x22] [])) 0x0040 = some 0xAF := by decide

theorem test_v24_xor_a :
    shown (step (machine 0x5A70 0x0000 0x0000 0x0000 0x0000 0x0000 [0xAF] [])) =
      some ([0x0080, 0x0000, 0x0000, 0x0000, 0x0000, 0x0001], some .ok) := by decide

theorem test_v25_xor_b :
    shown (step (machine 0x5A10 0xFF00 0x0000 0x0000 0x0000 0x0000 [0xA8] [])) =
      some ([0xA500, 0xFF00, 0x0000, 0x0000, 0x0000, 0x0001], some .ok) := by decide

theorem test_v26_xor_c :
    shown (step (machine 0x3C00 0x003C 0x0000 0x0000 0x0000 0x0000 [0xA9] [])) =
      some ([0x0080, 0x003C, 0x0000, 0x0000, 0x0000, 0x0001], some .ok) := by decide

theorem test_v27_xor_d :
    shown (step (placed [0xAA])) =
      some ([0x0080, 0x0000, 0x0000, 0x0000, 0x0000, 0x0001], some .ok) := by decide

theorem test_v28_xor_e :
    shown (step (machine 0x0FF0 0x0000 0x00F0 0x0000 0x0000 0x0000 [0xAB] [])) =
      some ([0xFF00, 0x0000, 0x00F0, 0x0000, 0x0000, 0x0001], some .ok) := by decide

theorem test_v29_xor_h :
    shown (step (machine 0x8010 0x0000 0x0000 0x9F00 0x0000 0x0000 [0xAC] [])) =
      some ([0x1F00, 0x0000, 0x0000, 0x9F00, 0x0000, 0x0001], some .ok) := by decide

theorem test_v30_xor_l :
    shown (step (machine 0xAA00 0x0000 0x0000 0x0055 0x0000 0x0000 [0xAD] [])) =
      some ([0xFF00, 0x0000, 0x0000, 0x0055, 0x0000, 0x0001], some .ok) := by decide

theorem test_v33_bit_7_h :
    shown (step (machine 0x0000 0x0000 0x0000 0x8000 0x0000 0x0000 [0xCB, 0x7C] [])) =
      some ([0x0020, 0x0000, 0x0000, 0x8000, 0x0000, 0x0002], some .ok) := by decide

theorem test_v34_bit_7_h :
    shown (step (machine 0x0010 0x0000 0x0000 0x7F00 0x0000 0x0000 [0xCB, 0x7C] [])) =
      some ([0x00B0, 0x0000, 0x0000, 0x7F00, 0x0000, 0x0002], some .ok) := by decide

theorem test_v35_bit_0_b :
    shown (step (machine 0x00D0 0x0100 0x0000 0x0000 0x0000 0x0000 [0xCB, 0x40] [])) =
      some ([0x0030, 0x0100, 0x0000, 0x0000, 0x0000, 0x0002], some .ok) := by decide

theorem test_v36_bit_0_b :
    shown (step (machine 0x0000 0xFE00 0x0000 0x0000 0x0000 0x0000 [0xCB, 0x40] [])) =
      some ([0x00A0, 0xFE00, 0x0000, 0x0000, 0x0000, 0x0002], some .ok) := by decide

theorem test_v37_bit_3_e :
    shown (step (machine 0x0010 0x0000 0x00F7 0x0000 0x0000 0x0000 [0xCB, 0x5B] [])) =
      some ([0x00B0, 0x0000, 0x00F7, 0x0000, 0x0000, 0x0002], some .ok) := by decide

theorem test_v38_bit_4_a :
    shown (step (machine 0x1000 0x0000 0x0000 0x0000 0x0000 0x0000 [0xCB, 0x67] [])) =
      some ([0x1020, 0x0000, 0x0000, 0x0000, 0x0000, 0x0002], some .ok) := by decide

theorem test_v39_bit_5_l :
    shown (step (machine 0x0090 0x0000 0x0000 0x0020 0x0000 0x0000 [0xCB, 0x6D] [])) =
      some ([0x0030, 0x0000, 0x0000, 0x0020, 0x0000, 0x0002], some .ok) := by decide

theorem test_v40_bit_2_c :
    shown (step (machine 0x0000 0x00FB 0x0000 0x0000 0x0000 0x0000 [0xCB, 0x51] [])) =
      some ([0x00A0, 0x00FB, 0x0000, 0x0000, 0x0000, 0x0002], some .ok) := by decide

theorem test_v41_bit_6_d :
    shown (step (machine 0x0000 0x0000 0x4000 0x0000 0x0000 0x0000 [0xCB, 0x72] [])) =
      some ([0x0020, 0x0000, 0x4000, 0x0000, 0x0000, 0x0002], some .ok) := by decide

theorem test_v42_bit_7_a :
    shown (step (machine 0x8000 0x0000 0x0000 0x0000 0x0000 0xFFFF [0xCB, 0x7F] [])) =
      some ([0x8020, 0x0000, 0x0000, 0x0000, 0x0000, 0x0001], some .ok) := by decide

theorem test_v43_unimpl_extended_0x46 :
    shown (step (machine 0x0010 0x0000 0x0000 0xC000 0x0000 0x0000 [0xCB, 0x46] (memWrite [] 0xC000 0x01))) =
      some ([0x0010, 0x0000, 0x0000, 0xC000, 0x0000, 0x0002], some (.unimplementedOpcode 0x46 0x0001 .extended)) := by decide

theorem test_v47_unimpl_extended_0xCB :
    shown (step (placed [0xCB, 0xCB, 0x7C])) =
      some ([0x0000, 0x0000, 0x0000, 0x0000, 0x0000, 0x0002], some (.unimplementedOpcode 0xCB 0x0001 .extended)) := by decide

theorem test_v48_unimpl_primary_0x00 :
    shown (step (machine 0x12F0 0x3456 0x789A 0xBCDE 0xFFFE 0x0000 [0x00] [])) =
      some ([0x12F0, 0x3456, 0x789A, 0xBCDE, 0xFFFE, 0x0001], some (.unimplementedOpcode 0x00 0x0000 .primary)) := by decide

/-! For each obligation with hypotheses: a state and operands that meet them, clause by clause. -/

/-- A state off the reset state: every register set, Carry and Subtract set, HL at 0xC000, `bs` at 0x0100. -/
def busy (bs : List Byte) : State := machine 0x5AD0 0x2233 0x4455 0xC000 0xFFFE 0x0100 bs [(0xC000, 0x77)]

theorem witness_state_inv_of_busy : StateInv (busy [0x22]) := by rw [StateInv]; decide

theorem witness_DecodeOfEncodeIsTheInstruction :
    (Instr.ldSpD16 0xFFFE).wf = true ∧ Instr.bit7H.wf = true ∧ (Instr.unimplPrimary 0x36).wf = true := by decide

theorem witness_EncodeOfDecodeIsTheBytes : decode [0x31, 0xFE, 0xFF, 0xAF] = .ok (.ldSpD16 0xFFFE, [0xAF]) := by rfl

theorem witness_FetchReadsExactlyTheInstructionBytes :
    (busy [0x22, 0x99]).pc = (busy [0x22, 0x11]).pc ∧
    ∀ k : Nat, k < lengthOfFirstByte (fetchAt 0 (busy [0x22, 0x11])) →
      fetchAt (BitVec.ofNat 16 k) (busy [0x22, 0x99]) = fetchAt (BitVec.ofNat 16 k) (busy [0x22, 0x11]) := by decide

theorem witness_StepRunsTheDecodedInstruction :
    let s := busy [0x31, 0xFE, 0xFF]
    decode [memRead s.mem s.pc, memRead s.mem (s.pc + 1), memRead s.mem (s.pc + 2)] = .ok (.ldSpD16 0xFFFE, []) := by rfl

theorem witness_StepRunsThePlacedEncoding :
    let s := busy [0x31, 0xFE, 0xFF]
    let i := Instr.ldSpD16 0xFFFE
    i.wf = true ∧
    ∀ (k : Nat) (h : k < (encode i).length), memRead s.mem (s.pc + BitVec.ofNat 16 k) = (encode i)[k] := by decide

theorem witness_StepAfterWithFetchWordRunsTheTableWord :
    StateInv (busy [0x22]) ∧ decodeTableWord 16 0xCB7C = some .bit7H ∧ decodeTableWord 8 0x00 = some (.unimplPrimary 0x00) := by
  rw [StateInv]; decide

theorem witness_StepMovesPcByTheLengthOfTheFirstByte :
    (∃ t, step (busy [0x31, 1, 2]) = .next t) ∧ (∃ t, step (busy [0xCB, 0x46]) = .next t) ∧
    (∃ t, step (busy [0x00]) = .next t) := ⟨⟨_, rfl⟩, ⟨_, rfl⟩, ⟨_, rfl⟩⟩

theorem witness_StoresWriteAThenAdjustHl :
    StateInv (busy [0x22]) ∧ (Instr.ldHliA = .ldHliA ∧ (1 : Word) = 1) ∧
    (Instr.ldHldA = .ldHldA ∧ (0xFFFF : Word) = 0xFFFF) := by rw [StateInv]; decide

theorem witness_BitTestWritesTheFlagsAlone :
    (Instr.bit0B, (0 : BitVec 3), R8.b) ∈ bitInstructions ∧ (Instr.bit7A, (7 : BitVec 3), R8.a) ∈ bitInstructions ∧
    (Instr.bit7H, (7 : BitVec 3), R8.h) ∈ bitInstructions := by decide

theorem witness_LoadsFrame :
    [Instr.ldBcD16 1, .ldDeD16 1, .ldHlD16 1, .ldSpD16 0xFFFF, .ldBD8 1, .ldCD8 1, .ldDD8 1, .ldED8 1, .ldHD8 1, .ldLD8 1,
      .ldAD8 0xFF].map familyOf =
    [.loadPair .bc, .loadPair .de, .loadPair .hl, .loadPair .sp, .loadHalf .b, .loadHalf .c, .loadHalf .d, .loadHalf .e,
      .loadHalf .h, .loadHalf .l, .loadHalf .a] ∧
    (∃ t, exec (.ldSpD16 0xFFFF) (busy []) = .next t) ∧ ∃ t, exec (.ldAD8 0xFF) (busy []) = .next t :=
  ⟨rfl, ⟨_, rfl⟩, ⟨_, rfl⟩⟩

theorem witness_StoresFrame :
    StateInv (busy [0x22]) ∧ (∃ t, exec .ldHliA (busy [0x22]) = .next t) ∧ (∃ t, exec .ldHldA (busy [0x22]) = .next t) ∧
    storeAddress (busy [0x22]) = 0xC000 ∧ (0xC001 : Word) ≠ 0xC000 :=
  ⟨witness_state_inv_of_busy, ⟨_, rfl⟩, ⟨_, rfl⟩, by decide, by decide⟩

theorem witness_XorFrame : familyOf .xorH = .xor .h ∧ ∃ t, exec .xorH (busy [0xAC]) = .next t := ⟨rfl, _, rfl⟩

theorem witness_BitTestFrame : familyOf .bit7H = .bitTest .h ∧ ∃ t, exec .bit7H (busy [0xCB, 0x7C]) = .next t := ⟨rfl, _, rfl⟩

theorem witness_UnimplementedOpcodeChangesOnlyPc :
    (∃ t, step (busy [0x36]) = .next t ∧ t.report = some (.unimplementedOpcode 0x36 0x0100 .primary)) ∧
    (∃ t, step (busy [0xCB, 0x46]) = .next t ∧ t.report = some (.unimplementedOpcode 0x46 0x0101 .extended)) ∧
    let m := (busy [0xCB, 0x46, 0x99]).mem
    memRead m 0x0100 = 0xCB ∧ memRead m 0x0101 = 0x46 ∧ m ≠ (busy [0xCB, 0x46]).mem :=
  ⟨⟨_, rfl, rfl⟩, ⟨_, rfl, rfl⟩, by decide⟩

/-- Each opcode that a statement about a step starts from stands at the PC of some state: the three LD rp, LD SP, the
seven LD r, the two stores (in a canonical memory), the seven XOR r. -/
theorem witness_StepOfEachFamily :
    ([0x01, 0x11, 0x21, 0x31, 0x06, 0x0E, 0x16, 0x1E, 0x26, 0x2E, 0x3E, 0x22, 0x32, 0xA8, 0xA9, 0xAA, 0xAB, 0xAC, 0xAD,
      0xAF] : List Byte).all (fun op => memRead (busy [op]).mem (busy [op]).pc == op && (busy [op]).mem.wf) = true := by decide

theorem witness_LdSpWritesSpAndNothingReadsIt :
    memRead (busy [0x31]).mem (busy [0x31]).pc = 0x31 ∧
    memRead (busy [0xAF]).mem (busy [0xAF]).pc ≠ 0x31 ∧ ∃ t, step (busy [0xAF]) = .next t :=
  ⟨by decide, by decide, _, rfl⟩

theorem witness_XorAAlwaysClearsAAndSetsZeroAlone :
    memRead (busy [0xAF]).mem (busy [0xAF]).pc = 0xAF ∧ ∃ t, exec .xorA (busy [0xAF]) = .next t := ⟨by decide, _, rfl⟩

/-- The lowest and the highest opcode of the BIT family: `b = 0`, `z = 0` and `b = 7`, `z = 7`. -/
theorem witness_StepOfBitTestsTheNamedBit :
    let rs : List (Byte × R8) := [(0, .b), (1, .c), (2, .d), (3, .e), (4, .h), (5, .l), (7, .a)]
    ((0, .b) ∈ rs ∧ memRead (busy [0xCB, 0x40]).mem (busy [0xCB, 0x40]).pc = 0xCB ∧
      memRead (busy [0xCB, 0x40]).mem ((busy [0xCB, 0x40]).pc + 1) = 0x40#8 ||| (BitVec.ofNat 8 (0 : BitVec 3).toNat <<< 3) ||| 0) ∧
    ((7, .a) ∈ rs ∧ memRead (busy [0xCB, 0x7F]).mem (busy [0xCB, 0x7F]).pc = 0xCB ∧
      memRead (busy [0xCB, 0x7F]).mem ((busy [0xCB, 0x7F]).pc + 1) = 0x40#8 ||| (BitVec.ofNat 8 (7 : BitVec 3).toNat <<< 3) ||| 7) := by
  decide

/-- Primary 0x00 and 0xFF; extended 0x3F, 0x80 and 0x46, the nearest values outside the BIT family. -/
theorem witness_StepReportsEveryUnassignedOpcode :
    ([0x00, 0xFF] : List Byte).all (fun op => memRead (busy [op]).mem (busy [op]).pc == op && op != 0xCB &&
      !assignedPrimary.contains op) = true ∧
    ([0x3F, 0x80, 0x46] : List Byte).all (fun op => memRead (busy [0xCB, op]).mem (busy [0xCB, op]).pc == 0xCB &&
      memRead (busy [0xCB, op]).mem ((busy [0xCB, op]).pc + 1) == op &&
      (decide (op.toNat < 0x40) || decide (0x7F < op.toNat) || decide (op.toNat % 8 = 6))) = true := by decide

theorem witness_PrefixSelectsTheExtendedPageOnce :
    fetchBytes (busy [0xCB, 0xCB]) = [0xCB, 0xCB] ∧ fetchBytes (busy [0xAF]) = [0xAF] ∧
    fetchBytes (busy [0x3E, 0xCB]) = [0x3E, 0xCB] ∧ fetchBytes (busy [0x31, 0xCB, 0xCB]) = [0x31, 0xCB, 0xCB] := by decide

theorem witness_StoreIsSeenByEveryLaterFetch :
    StateInv (busy [0x22]) ∧ fetchInstr (busy [0x22]) = .ldHliA ∧ StateInv (busy [0x32]) ∧ fetchInstr (busy [0x32]) = .ldHldA := by
  rw [StateInv, StateInv]; decide

/-- A state at the address `pc` with `bs` there and `HL = hl`. -/
def atTop (pc hl : Word) (bs : List Byte) : State := machine 0x5A10 0 0 hl 0 pc bs []

theorem witness_AddressesWrapAtTheTopOfMemory :
    memRead (atTop 0xFFFE 0 [0x31, 0xCD, 0xAB]).mem 0xFFFE = 0x31 ∧ memRead (atTop 0xFFFF 0 [0x31, 0xCD, 0xAB]).mem 0xFFFF = 0x31 ∧
    memRead (atTop 0xFFFF 0 [0xCB, 0x7F]).mem 0xFFFF = 0xCB ∧ memRead (atTop 0xFFFF 0 [0xAF]).mem 0xFFFF = 0xAF ∧
    read16 .hl (atTop 0 0xFFFF []) = 0xFFFF ∧ read16 .hl (atTop 0 0 []) = 0 := by decide

theorem witness_StepDependsOnlyOnRegistersAndMemoryContent :
    let s := busy [0x22]
    let s' := { s with report := some (.unimplementedOpcode 0x36 0 .primary) }
    StateInv s ∧ StateInv s' ∧ (∀ x : Word, memRead s'.mem x = memRead s.mem x) ∧
    s' = { s with mem := s'.mem, report := s'.report } ∧ s' ≠ s :=
  ⟨witness_state_inv_of_busy, witness_state_inv_of_busy, fun _ => rfl, rfl, by decide⟩

theorem witness_NoStepSetsSubtractOrCarry :
    (∃ t, step (busy [0xCB, 0x7C]) = .next t ∧ t.flags.c = true) ∧ ∃ t, step (busy [0x3E]) = .next t ∧ t.flags.n = true :=
  ⟨⟨_, rfl, by decide⟩, ⟨_, rfl, by decide⟩⟩

theorem witness_StepKeepsMemoryCanonical : StateInv (busy [0x22]) ∧ ∃ t, step (busy [0x22]) = .next t :=
  ⟨witness_state_inv_of_busy, _, rfl⟩

theorem witness_ResetAndLaunchHaveCanonicalMemory : StateInv State.reset ∧ StateInv (busy [0x22]) :=
  ⟨rfl, witness_state_inv_of_busy⟩

theorem witness_OnlyStoresChangeMemoryAndOnlyAtHl :
    StateInv (busy [0x22]) ∧ ∃ t, step (busy [0x22]) = .next t ∧ memRead t.mem 0xC000 ≠ memRead (busy [0x22]).mem 0xC000 :=
  ⟨witness_state_inv_of_busy, _, rfl, by decide⟩

theorem witness_InstructionsWriteOnlyTheirRegisters :
    CoreReg.half .h ∉ regsWritten .xorH ∧ ∃ t, exec .xorH (busy [0xAC]) = .next t := ⟨by decide, _, rfl⟩

/-- `A` is written and not read by LD A,d8 (the last clause), `SP` neither read nor written by XOR H. -/
theorem witness_InstructionsReadOnlyTheirRegisters :
    CoreReg.half .a ∉ regsRead (.ldAD8 0x5A) ∧ CoreReg.half .a ∈ regsWritten (.ldAD8 0x5A) ∧ CoreReg.sp ∉ regsRead .xorH := by
  decide

theorem witness_TheCoreNeverEndsARun : StateInv (busy [0x00]) := by rw [StateInv]; decide

theorem witness_EveryMemoryImageIsOneCanonicalMemory :
    let image : Word → Byte := fun x => if x = 0xFFFF then 0xAA else 0
    Memory.wf [(0xFFFF, 0xAA)] = true ∧ ∀ x : Word, memRead [(0xFFFF, 0xAA)] x = image x := by
  refine ⟨by decide, fun x => ?_⟩
  by_cases h : x = 0xFFFF
  · subst h; decide
  · have : ¬ (0xFFFF = x.toNat) := fun e => h (BitVec.eq_of_toNat_eq e.symm)
    simp only [memRead, Memory.lookup, if_neg this, if_neg h]
    rfl

theorem witness_ResetZeroesEveryRegisterAndKeepsMemory : (busy [0x22]).mem = (busy [0x22]).mem ∧ busy [0x22] ≠ State.reset := by
  decide

theorem witness_FlagAccessDisturbsNoOtherFlag : Flag.c ≠ Flag.z ∧ Flag.n ≠ Flag.h := by decide

end Sys2Proof.Tests
end

section
/-! How many opcodes of each family a page holds: the assigned ones are listed, the unassigned ones are the rest of the page. -/

namespace Sys2Proof.Laws.OpcodePages

open Sys2Proof.Machine

/-! The count of a page, for any split of it into assigned opcodes and the rest. -/

/-- On a page whose opcodes outside `assigned` are all unassigned, counting the opcodes of some families means counting
among the assigned ones and, when the unassigned family counts, adding all the rest (30_encoding.md R89). -/
theorem length_filter_page {page assigned : List Byte} {f : Byte → Family}
    (hnodup : assigned.Nodup) (hsub : assigned ⊆ page)
    (hrest : ∀ b ∈ page.diff assigned, f b = .unassigned) (P : Family → Bool) :
    (page.filter fun b => P (f b)).length =
      (assigned.map f).countP P + if P .unassigned then page.length - assigned.length else 0 := by
  have hperm : (assigned ++ page.diff assigned).Perm page :=
    List.subperm_append_diff_self_of_count_le (List.subperm_ext_iff.1 (hnodup.subperm hsub))
  have hlen : (page.diff assigned).length = page.length - assigned.length := by
    rw [← hperm.length_eq, List.length_append, Nat.add_sub_cancel_left]
  have hmap : (page.diff assigned).map f = List.replicate (page.length - assigned.length) .unassigned :=
    List.eq_replicate_iff.2 ⟨by rw [List.length_map, hlen], by simpa using hrest⟩
  calc (page.filter fun b => P (f b)).length
      = (page.map f).countP P := by rw [List.countP_map, List.countP_eq_length_filter]; rfl
    _ = ((assigned ++ page.diff assigned).map f).countP P := ((hperm.map f).countP_eq P).symm
    _ = _ := by rw [List.map_append, List.countP_append, hmap, List.countP_replicate]

/-! The bytes of the two pages. -/

/-- Every byte value once. -/
def opcodeBytes : List Byte := (List.range 256).map (BitVec.ofNat 8)

/-- The primary opcodes: every byte value but the prefix (30_encoding.md R87). -/
def primaryBytes : List Byte := opcodeBytes.filter (· != 0xCB)

theorem opcodeBytes_nodup : opcodeBytes.Nodup :=
  List.nodup_range.map_on fun m hm n hn h => by
    have := congrArg BitVec.toNat h
    simp only [BitVec.toNat_ofNat, List.mem_range] at this hm hn
    omega

@[simp] theorem mem_opcodeBytes (b : Byte) : b ∈ opcodeBytes :=
  List.mem_map.2 ⟨b.toNat, List.mem_range.2 b.isLt, by simp⟩

@[simp] theorem mem_primaryBytes {b : Byte} : b ∈ primaryBytes ↔ b ≠ 0xCB := by
  simp [primaryBytes]

@[simp] theorem length_opcodeBytes : opcodeBytes.length = 256 := by
  simp [opcodeBytes]

@[simp] theorem length_primaryBytes : primaryBytes.length = 255 := by
  have h : primaryBytes = opcodeBytes.erase 0xCB := (opcodeBytes_nodup.erase_eq_filter _).symm
  rw [h, List.length_erase_of_mem (mem_opcodeBytes _), length_opcodeBytes]

/-! The primary page (30_encoding.md R85). -/

/-- A primary opcode outside the list of R85 is unassigned, whatever bytes follow it. -/
theorem decodePrimary_of_not_mem_assignedPrimary {op : Byte} (h : op ∉ assignedPrimary) (b1 b2 : Byte) :
    decodePrimary op b1 b2 = .unimplPrimary op := by
  have hclass : ∀ b : Byte, b ∉ assignedPrimary → classifyPrimary b = .unassigned := by decide
  rw [decodePrimary, hclass op h]

/-- The families of the twenty assigned primary opcodes, in the order of R85. -/
theorem families_of_assignedPrimary :
    assignedPrimary.map (fun b => familyOf (decodePrimary b 0 0)) =
      [.loadPair .bc, .loadHalf .b, .loadHalf .c, .loadPair .de, .loadHalf .d, .loadHalf .e, .loadPair .hl, .store,
       .loadHalf .h, .loadHalf .l, .loadPair .sp, .store, .loadHalf .a, .xor .b, .xor .c, .xor .d, .xor .e, .xor .h,
       .xor .l, .xor .a] := by decide

/-- How many primary opcodes are of the families `P`. -/
theorem length_filter_primary (P : Family → Bool) :
    (primaryBytes.filter fun b => P (familyOf (decodePrimary b 0 0))).length =
      (assignedPrimary.map fun b => familyOf (decodePrimary b 0 0)).countP P + if P .unassigned then 235 else 0 := by
  have hprefix : (0xCB : Byte) ∉ assignedPrimary := by decide
  have hsub : assignedPrimary ⊆ primaryBytes := fun b hb => mem_primaryBytes.2 fun e => hprefix (e ▸ hb)
  have hrest : ∀ b ∈ primaryBytes.diff assignedPrimary, familyOf (decodePrimary b 0 0) = .unassigned := fun b hb => by
    have hmem : b ∉ assignedPrimary := ((opcodeBytes_nodup.filter _).mem_sdiff_iff.1 hb).2
    rw [decodePrimary_of_not_mem_assignedPrimary hmem, familyOf]
  rw [length_filter_page (by decide) hsub hrest, length_primaryBytes]
  rfl

/-! The extended page (30_encoding.md R86). -/

/-- The opcodes of the BIT instructions: what their encodings hold after the prefix. -/
def bitOpcodes : List Byte := bitInstructions.flatMap fun e => (encode e.1).drop 1

/-- An extended opcode outside 0x40 to 0x7F, or with selector 6, is unassigned. -/
theorem decodeExtended_of_assignedExtended_eq_false {op : Byte} (h : assignedExtended op = false) :
    decodeExtended op = .unimplExtended op := by
  have hclass : ∀ b : Byte, assignedExtended b = false → classifyExtended b = .unassigned := by decide
  rw [decodeExtended, hclass op h]

theorem mem_bitOpcodes_of_assignedExtended {op : Byte} (h : assignedExtended op = true) : op ∈ bitOpcodes := by
  revert op; decide

/-- The families of the BIT opcodes, in the order of 45_bit.md R161 to R167. -/
theorem families_of_bitOpcodes :
    bitOpcodes.map (fun b => familyOf (decodeExtended b)) = bitInstructions.map fun e => .bitTest e.2.2 := by decide

/-- How many extended opcodes are of the families `P`. -/
theorem length_filter_extended (P : Family → Bool) :
    (opcodeBytes.filter fun b => P (familyOf (decodeExtended b))).length =
      (bitInstructions.map fun e => .bitTest e.2.2).countP P + if P .unassigned then 200 else 0 := by
  have hrest : ∀ b ∈ opcodeBytes.diff bitOpcodes, familyOf (decodeExtended b) = .unassigned := fun b hb => by
    have hmem : b ∉ bitOpcodes := (opcodeBytes_nodup.mem_sdiff_iff.1 hb).2
    have hfree : assignedExtended b = false := by simpa using mt mem_bitOpcodes_of_assignedExtended hmem
    rw [decodeExtended_of_assignedExtended_eq_false hfree, familyOf]
  rw [length_filter_page (by decide) (fun b _ => mem_opcodeBytes b) hrest, length_opcodeBytes, families_of_bitOpcodes]
  rfl

/-- Settles O4: on each page the assigned opcodes are counted from their list, and the unassigned ones are the rest. -/
theorem opcodePagesHoldSeventySixInstructions : Obligations.OpcodePagesHoldSeventySixInstructions := by
  unfold Obligations.OpcodePagesHoldSeventySixInstructions
  intro pages bytes primary extended
  have hprimary (P : Family → Bool) : primary P = _ := length_filter_primary P
  have hextended (P : Family → Bool) : extended P = _ := length_filter_extended P
  simp only [hprimary, hextended, families_of_assignedPrimary]
  decide

end Sys2Proof.Laws.OpcodePages
end

section
/-! What an instruction of each family does, said once together with its length; and what the shared operations do to each
field and each register. -/

namespace Sys2Proof.Machine

/-! The operation of an instruction. -/

/-- The operations that are meanings of a family's instructions, with the length of those instructions
(30_encoding.md R88, R92). `exec_familyOp` ties it to `exec`. -/
inductive FamilyOp : Family → Nat → (State → State) → Prop where
  | loadPair (r : Rp) (imm : Word) : FamilyOp (.loadPair r) 3 (loadPair r imm)
  | loadHalf (r : R8) (imm : Byte) : FamilyOp (.loadHalf r) 2 (loadHalf r imm)
  | store (delta : Word) : FamilyOp .store 1 (storePostModify delta)
  | xor (r : R8) : FamilyOp (.xor r) 1 (xorWith r)
  | bitTest (n : BitVec 3) (r : R8) : FamilyOp (.bitTest r) 2 (bitTest n r)
  | unassignedPrimary (op : Byte) : FamilyOp .unassigned 1 (reportUnimplemented .primary op)
  | unassignedExtended (op : Byte) : FamilyOp .unassigned 2 (reportUnimplemented .extended op)

/-- Every instruction is, in every state, one operation of its family, and no state is without a next one. -/
theorem exec_familyOp (i : Instr) : ∃ f, FamilyOp (familyOf i) i.length f ∧ ∀ s, exec i s = .next (f s) := by
  cases i <;> exact ⟨_, by constructor, fun _ => rfl⟩

/-! The fields that a register write or an operation leaves or sets. -/

@[simp] theorem write16_rpPair_pc (r : Rp) (v : Word) (s : State) : (write16 (rpPair r) v s).pc = s.pc := by
  cases r <;> rfl
@[simp] theorem write16_rpPair_flags (r : Rp) (v : Word) (s : State) : (write16 (rpPair r) v s).flags = s.flags := by
  cases r <;> rfl

@[simp] theorem loadPair_pc (r : Rp) (v : Word) (s : State) : (loadPair r v s).pc = s.pc + 3 := by simp [loadPair]
@[simp] theorem loadPair_flags (r : Rp) (v : Word) (s : State) : (loadPair r v s).flags = s.flags := by simp [loadPair]
@[simp] theorem loadPair_mem (r : Rp) (v : Word) (s : State) : (loadPair r v s).mem = s.mem := by simp [loadPair]
@[simp] theorem loadPair_report (r : Rp) (v : Word) (s : State) : (loadPair r v s).report = some .ok := rfl

@[simp] theorem loadHalf_pc (r : R8) (v : Byte) (s : State) : (loadHalf r v s).pc = s.pc + 2 := by simp [loadHalf]
@[simp] theorem loadHalf_flags (r : R8) (v : Byte) (s : State) : (loadHalf r v s).flags = s.flags := by simp [loadHalf]
@[simp] theorem loadHalf_mem (r : R8) (v : Byte) (s : State) : (loadHalf r v s).mem = s.mem := by simp [loadHalf]
@[simp] theorem loadHalf_report (r : R8) (v : Byte) (s : State) : (loadHalf r v s).report = some .ok := rfl

@[simp] theorem storePostModify_pc (k : Word) (s : State) : (storePostModify k s).pc = s.pc + 1 := rfl
@[simp] theorem storePostModify_flags (k : Word) (s : State) : (storePostModify k s).flags = s.flags := rfl
@[simp] theorem storePostModify_mem (k : Word) (s : State) :
    (storePostModify k s).mem = memWrite s.mem (storeAddress s) s.a := rfl
@[simp] theorem storePostModify_report (k : Word) (s : State) : (storePostModify k s).report = some .ok := rfl

@[simp] theorem xorWith_pc (r : R8) (s : State) : (xorWith r s).pc = s.pc + 1 := rfl
@[simp] theorem xorWith_flags (r : R8) (s : State) : (xorWith r s).flags = xorFlags s.a (read8 r s) := rfl
@[simp] theorem xorWith_mem (r : R8) (s : State) : (xorWith r s).mem = s.mem := rfl
@[simp] theorem xorWith_report (r : R8) (s : State) : (xorWith r s).report = some .ok := rfl

@[simp] theorem bitTest_pc (n : BitVec 3) (r : R8) (s : State) : (bitTest n r s).pc = s.pc + 2 := rfl
@[simp] theorem bitTest_flags (n : BitVec 3) (r : R8) (s : State) :
    (bitTest n r s).flags = bitTestFlags n (read8 r s) s.flags := rfl
@[simp] theorem bitTest_mem (n : BitVec 3) (r : R8) (s : State) : (bitTest n r s).mem = s.mem := rfl
@[simp] theorem bitTest_report (n : BitVec 3) (r : R8) (s : State) : (bitTest n r s).report = some .ok := rfl

theorem reportUnimplemented_report_ne_ok (p : Page) (v : Byte) (s : State) :
    (reportUnimplemented p v s).report ≠ some .ok := nofun

/-! Reading a register after another one was written. -/

@[simp] theorem readReg_complete (r : CoreReg) (n : Word) (s : State) : readReg r (complete n s) = readReg r s := by
  rcases r with (_ | _) | _ | _ <;> rfl

@[simp] theorem readReg_withMem (r : CoreReg) (m : Memory) (s : State) : readReg r { s with mem := m } = readReg r s := by
  rcases r with (_ | _) | _ | _ <;> rfl

@[simp] theorem readReg_reportUnimplemented (r : CoreReg) (p : Page) (v : Byte) (s : State) :
    readReg r (reportUnimplemented p v s) = readReg r s := by
  rcases r with (_ | _) | _ | _ <;> rfl

theorem readReg_write8_of_ne {q : CoreReg} {r : R8} (h : q ≠ .half r) (v : Byte) (s : State) :
    readReg q (write8 r v s) = readReg q s := by
  cases q with
  | half q =>
    have hqr : q ≠ r := fun e => h (congrArg _ e)
    simp [readReg, read8_write8, hqr]
  | f => simp [readReg, readF]
  | sp => simp [readReg]

theorem readReg_write8_write8_of_notMem {q : CoreReg} {r r' : R8} (h : q ∉ [.half r, .half r']) (v v' : Byte) (s : State) :
    readReg q (write8 r v (write8 r' v' s)) = readReg q s := by
  obtain ⟨hr, hr'⟩ : q ≠ .half r ∧ q ≠ .half r' := by simpa using h
  rw [readReg_write8_of_ne hr, readReg_write8_of_ne hr']

theorem readReg_withFlags_of_ne {q : CoreReg} (h : q ≠ .f) (fs : Flags) (s : State) :
    readReg q { s with flags := fs } = readReg q s := by
  cases q with
  | half q => cases q <;> rfl
  | f => exact absurd rfl h
  | sp => rfl

theorem readReg_setReg_of_ne {q r : CoreReg} (h : q ≠ r) (v : Word) (s : State) :
    readReg q (setReg r v s) = readReg q s := by
  cases r with
  | half r => exact readReg_write8_of_ne h _ s
  | f => exact readReg_withFlags_of_ne h _ s
  | sp =>
    cases q with
    | half q => cases q <;> rfl
    | f => rfl
    | sp => exact absurd rfl h

theorem read8_setReg_of_ne {q : R8} {r : CoreReg} (h : r ≠ .half q) (v : Word) (s : State) :
    read8 q (setReg r v s) = read8 q s := by
  simpa [readReg] using congrArg loByte (readReg_setReg_of_ne h.symm v s)

@[simp] theorem setReg_pc (r : CoreReg) (v : Word) (s : State) : (setReg r v s).pc = s.pc := by
  cases r <;> simp [setReg]
@[simp] theorem setReg_mem (r : CoreReg) (v : Word) (s : State) : (setReg r v s).mem = s.mem := by
  cases r <;> simp [setReg]
@[simp] theorem setReg_report (r : CoreReg) (v : Word) (s : State) : (setReg r v s).report = s.report := by
  cases r <;> simp [setReg]

/-! A pair, written as its two halves (10_state.md R11, R26). -/

theorem write16_bc_eq_halves (w : Word) (s : State) : write16 .bc w s = write8 .b (hiByte w) (write8 .c (loByte w) s) := rfl
theorem write16_de_eq_halves (w : Word) (s : State) : write16 .de w s = write8 .d (hiByte w) (write8 .e (loByte w) s) := rfl
theorem write16_hl_eq_halves (w : Word) (s : State) : write16 .hl w s = write8 .h (hiByte w) (write8 .l (loByte w) s) := rfl
theorem write16_af_eq_halves (w : Word) (s : State) : write16 .af w s = write8 .a (hiByte w) (writeF (loByte w) s) := rfl

/-- Settles O14: each operation moves `PC` by the length of its instructions and reports `Ok`, but for the report of an
unassigned opcode. -/
theorem everyInstructionCompletesPastItsBytes : Obligations.EveryInstructionCompletesPastItsBytes := by
  unfold Obligations.EveryInstructionCompletesPastItsBytes
  intro i s
  obtain ⟨f, hop, hexec⟩ := exec_familyOp i
  refine ⟨f s, hexec s, ?_⟩
  generalize familyOf i = F, i.length = n at hop ⊢
  cases hop with
  | loadPair r imm => simp
  | loadHalf r imm => simp
  | store delta => simp
  | xor r => simp
  | bitTest n r => simp
  | unassignedPrimary op => simp [reportUnimplemented_report_ne_ok]
  | unassignedExtended op => simp [reportUnimplemented_report_ne_ok, BitVec.add_assoc]

end Sys2Proof.Machine
end

section
/-! Every step keeps the invariant, and so does what the host may do between steps. -/

namespace Sys2Proof.Machine

/-- Settles O40: the two stores write memory, at an address of the memory, and no other operation touches it. -/
theorem stepKeepsMemoryCanonical : Obligations.StepKeepsMemoryCanonical := by
  unfold Obligations.StepKeepsMemoryCanonical StateInv
  intro s t hs ht
  rcases step_cases ht with ⟨r, imm, rfl⟩ | ⟨r, imm, rfl⟩ | ⟨k, rfl⟩ | ⟨r, rfl⟩ | ⟨n, r, rfl⟩ | ⟨p, op, rfl⟩
  · rwa [loadPair_mem]
  · rwa [loadHalf_mem]
  · exact memWrite_wf hs (storeAddress s) s.a
  · rwa [xorWith_mem]
  · rwa [bitTest_mem]
  · rwa [reportUnimplemented_mem]

/-- The memory of an image reads as the image (00_scope.md R4). -/
@[simp] theorem memRead_memoryOfImage (image : Word → Byte) (x : Word) : memRead (memoryOfImage image) x = image x := by
  unfold memoryOfImage memRead
  have hx : x.toNat < Config.memorySize := x.isLt
  rw [lookup_imageCells image _ (Nat.le_refl _) [] rfl, if_pos hx, BitVec.ofNat_toNat, BitVec.setWidth_eq]

@[simp] theorem launch_mem (image : Word → Byte) : (launch image).mem = memoryOfImage image := rfl

/-- Settles O46: canonical memories that read alike are equal. -/
theorem everyMemoryImageIsOneCanonicalMemory : Obligations.EveryMemoryImageIsOneCanonicalMemory := by
  unfold Obligations.EveryMemoryImageIsOneCanonicalMemory
  intro image
  refine ⟨memRead_memoryOfImage image, fun m hm hread => ?_⟩
  exact memory_ext hm (memoryOfImage_wf image) fun x => (hread x).trans (memRead_memoryOfImage image x).symm

/-- Settles O41: the memory of an image is canonical, and every write of the host keeps the form. -/
theorem resetAndLaunchHaveCanonicalMemory : Obligations.ResetAndLaunchHaveCanonicalMemory := by
  unfold Obligations.ResetAndLaunchHaveCanonicalMemory StateInv
  exact ⟨rfl, memoryOfImage_wf, fun s hs => ⟨hs, memWrite_wf hs, storeTableWord_wf hs⟩⟩

end Sys2Proof.Machine
end

section
/-! The register matrix (10_state.md R25): which registers an instruction can change, and which can influence it. -/

namespace Sys2Proof.Machine

/-- Settles O43: an operation writes its destinations one after the other, and each write leaves every other register. -/
theorem instructionsWriteOnlyTheirRegisters : Obligations.InstructionsWriteOnlyTheirRegisters := by
  unfold Obligations.InstructionsWriteOnlyTheirRegisters
  intro i s t r ht hr
  obtain ⟨f, hop, hexec⟩ := exec_familyOp i
  obtain rfl : f s = t := Host.Outcome.next.inj ((hexec s).symm.trans ht)
  unfold regsWritten at hr
  generalize familyOf i = F, i.length = n at hop hr
  cases hop with
  | loadPair q imm =>
    rw [loadPair, readReg_complete]
    cases q with
    | bc => rw [rpPair, write16_bc_eq_halves, readReg_write8_write8_of_notMem hr]
    | de => rw [rpPair, write16_de_eq_halves, readReg_write8_write8_of_notMem hr]
    | hl => rw [rpPair, write16_hl_eq_halves, readReg_write8_write8_of_notMem hr]
    | sp => exact readReg_setReg_of_ne (by simpa using hr) imm s
  | loadHalf q imm =>
    have hq : r ≠ .half q := by simpa using hr
    rw [loadHalf, readReg_complete, readReg_write8_of_ne hq]
  | store delta =>
    rw [storePostModify, readReg_complete, storeAtHl, write16_hl_eq_halves, readReg_write8_write8_of_notMem hr,
      readReg_withMem]
  | xor q =>
    obtain ⟨ha, hf⟩ : r ≠ .half .a ∧ r ≠ .f := by simpa using hr
    rw [xorWith, readReg_complete]
    exact (readReg_write8_of_ne ha _ _).trans (readReg_withFlags_of_ne hf _ s)
  | bitTest n q =>
    have hf : r ≠ .f := by simpa using hr
    rw [bitTest, readReg_complete, readReg_withFlags_of_ne hf]
  | unassignedPrimary op => exact readReg_reportUnimplemented r _ op s
  | unassignedExtended op => exact readReg_reportUnimplemented r _ op s

/-! A register set before an operation that does not read it (10_state.md R25): an operation that writes the register
overwrites the value, any other carries it along. -/

theorem loadHalf_setReg (q : R8) (imm : Byte) (r : CoreReg) (v : Word) (s : State) :
    loadHalf q imm (setReg r v s) = if r = .half q then loadHalf q imm s else setReg r v (loadHalf q imm s) := by
  rcases r with (_ | _) | _ | _ <;> cases q <;> rfl

theorem storePostModify_setReg {r : CoreReg} (h : r ∉ [.half .a, .half .h, .half .l]) (k v : Word) (s : State) :
    storePostModify k (setReg r v s) = setReg r v (storePostModify k s) := by
  rcases r with (_ | _) | _ | _ <;> simp at h <;> rfl

theorem xorWith_setReg {q : R8} {r : CoreReg} (ha : r ≠ .half .a) (hq : r ≠ .half q) (v : Word) (s : State) :
    xorWith q (setReg r v s) = if r = .f then xorWith q s else setReg r v (xorWith q s) := by
  have hreadA : (setReg r v s).a = s.a := read8_setReg_of_ne ha v s
  rw [xorWith, hreadA, read8_setReg_of_ne hq]
  rcases r with (_ | _) | _ | _ <;> simp at ha <;> rfl

theorem bitTest_setReg {q : R8} {r : CoreReg} (hf : r ≠ .f) (hq : r ≠ .half q) (n : BitVec 3) (v : Word) (s : State) :
    bitTest n q (setReg r v s) = setReg r v (bitTest n q s) := by
  rw [bitTest, read8_setReg_of_ne hq]
  rcases r with (_ | _) | _ | _ <;> simp at hf <;> rfl

theorem reportUnimplemented_setReg (p : Page) (op : Byte) (r : CoreReg) (v : Word) (s : State) :
    reportUnimplemented p op (setReg r v s) = setReg r v (reportUnimplemented p op s) := by
  rcases r with (_ | _) | _ | _ <;> rfl

/-- A register that the matrix of 10_state.md R25 does not name as read: set before the instruction, it is overwritten
where the instruction writes it, and set after it otherwise. -/
theorem exec_setReg {i : Instr} {s t : State} {r : CoreReg} (hr : r ∉ regsRead i) (ht : exec i s = .next t) (v : Word) :
    exec i (setReg r v s) = .next (if r ∈ regsWritten i then t else setReg r v t) := by
  obtain ⟨f, hop, hexec⟩ := exec_familyOp i
  obtain rfl : f s = t := Host.Outcome.next.inj ((hexec s).symm.trans ht)
  rw [hexec, Host.Outcome.next.injEq]
  unfold regsRead at hr
  unfold regsWritten
  generalize familyOf i = F, i.length = n at hop hr ⊢
  cases hop with
  | loadPair q imm => cases q <;> rcases r with (_ | _) | _ | _ <;> rfl
  | loadHalf q imm => simpa using loadHalf_setReg q imm r v s
  | store delta =>
    have hwritten : r ∉ [.half .h, .half .l] := fun hmem => hr (List.mem_cons_of_mem _ hmem)
    rw [if_neg hwritten, storePostModify_setReg hr]
  | xor q =>
    obtain ⟨ha, hq⟩ : r ≠ .half .a ∧ r ≠ .half q := by simpa using hr
    simpa [ha] using xorWith_setReg ha hq v s
  | bitTest n q =>
    obtain ⟨hq, hf⟩ : r ≠ .half q ∧ r ≠ .f := by simpa using hr
    simpa [hf] using bitTest_setReg hf hq n v s
  | unassignedPrimary op => exact reportUnimplemented_setReg _ op r v s
  | unassignedExtended op => exact reportUnimplemented_setReg _ op r v s

/-- Settles O44: the next state of the changed state is the old one, or the old one with the same register changed. -/
theorem instructionsReadOnlyTheirRegisters : Obligations.InstructionsReadOnlyTheirRegisters := by
  unfold Obligations.InstructionsReadOnlyTheirRegisters
  intro i s r v hr
  obtain ⟨f, -, hexec⟩ := exec_familyOp i
  refine ⟨f s, _, hexec s, exec_setReg hr (hexec s) v, ?_⟩
  by_cases hw : r ∈ regsWritten i
  · simp [hw]
  · simp +contextual [hw, readReg_setReg_of_ne]

end Sys2Proof.Machine
end

section
/-! `SP` and the flags N and C in every step (10_state.md R15, R16). -/

namespace Sys2Proof.Machine

/-! `SP` in the matrix: no instruction reads it, and LD SP,d16 alone writes it (10_state.md R16). -/

theorem sp_notMem_regsRead (i : Instr) : .sp ∉ regsRead i := by
  unfold regsRead
  cases familyOf i <;> simp

theorem sp_mem_regsWritten_iff {i : Instr} : .sp ∈ regsWritten i ↔ familyOf i = .loadPair .sp := by
  unfold regsWritten
  cases familyOf i with
  | loadPair r => cases r <;> simp
  | loadHalf r => simp
  | store => simp
  | xor r => simp
  | bitTest r => simp
  | unassigned => simp

/-! The family of a decoded instruction. -/

@[simp] theorem familyOf_ldRpInstr (r : Rp) (imm : Word) : familyOf (ldRpInstr r imm) = .loadPair r := by cases r <;> rfl
@[simp] theorem familyOf_ldRInstr (r : R8) (imm : Byte) : familyOf (ldRInstr r imm) = .loadHalf r := by cases r <;> rfl
@[simp] theorem familyOf_xorInstr (r : R8) : familyOf (xorInstr r) = .xor r := by cases r <;> rfl
@[simp] theorem familyOf_bitInstr (n : BitVec 3) (r : R8) : familyOf (bitInstr n r) = .bitTest r := by
  revert n
  cases r <;> decide

/-- The family of a primary opcode's instruction does not depend on the bytes after it (30_encoding.md R92). -/
theorem familyOf_decodePrimary (op b1 b2 : Byte) :
    familyOf (decodePrimary op b1 b2) = familyOf (decodePrimary op 0 0) := by
  unfold decodePrimary
  cases classifyPrimary op <;> simp

theorem familyOf_decodeExtended_ne_loadPair (op : Byte) (r : Rp) : familyOf (decodeExtended op) ≠ .loadPair r := by
  unfold decodeExtended
  cases classifyExtended op with
  | bit n q => simp
  | unassigned => simp [familyOf]

/-- LD SP,d16 has the one opcode 0x31 (30_encoding.md R85). -/
theorem opcode_of_familyOf_loadPair_sp {b0 b1 b2 : Byte} (h : familyOf (decodeBytes b0 b1 b2) = .loadPair .sp) :
    b0 = 0x31 := by
  have hprimary : ∀ op : Byte, familyOf (decodePrimary op 0 0) = .loadPair .sp → op = 0x31 := by decide
  unfold decodeBytes at h
  split at h
  · exact absurd h (familyOf_decodeExtended_ne_loadPair b1 .sp)
  · exact hprimary b0 (familyOf_decodePrimary b0 b1 b2 ▸ h)

@[simp] theorem fetchAt_zero (s : State) : fetchAt 0 s = memRead s.mem s.pc := by simp [fetchAt]

theorem step_ldSp {s : State} (h : memRead s.mem s.pc = 0x31) :
    step s = .next (loadPair .sp (joinBytes (fetchAt 2 s) (fetchAt 1 s)) s) := by
  rw [step, fetchInstr, fetchAt_zero, h]
  rfl

/-- Settles O28: by the matrix, `SP` is written in the family of 0x31 alone and read in none. -/
theorem ldSpWritesSpAndNothingReadsIt : Obligations.LdSpWritesSpAndNothingReadsIt := by
  unfold Obligations.LdSpWritesSpAndNothingReadsIt
  refine ⟨fun s h => step_ldSp h, fun s t hop ht => ?_, fun s v => ?_, resetCore_sp⟩
  · have hsp : .sp ∉ regsWritten (fetchInstr s) := fun hmem =>
      hop (fetchAt_zero s ▸ opcode_of_familyOf_loadPair_sp (sp_mem_regsWritten_iff.1 hmem))
    exact instructionsWriteOnlyTheirRegisters _ s t .sp ht hsp
  · obtain ⟨f, -, hexec⟩ := exec_familyOp (fetchInstr s)
    refine ⟨f s, _, hexec s, exec_setReg (sp_notMem_regsRead _) (hexec s) v, ?_⟩
    split <;> rfl

/-- Settles O39: XOR and BIT alone write flags, and they clear N; XOR clears C and BIT keeps it. -/
theorem noStepSetsSubtractOrCarry : Obligations.NoStepSetsSubtractOrCarry := by
  unfold Obligations.NoStepSetsSubtractOrCarry
  refine ⟨fun s t h => ?_, fun s => ⟨rfl, rfl⟩⟩
  rcases step_cases h with ⟨r, imm, rfl⟩ | ⟨r, imm, rfl⟩ | ⟨k, rfl⟩ | ⟨r, rfl⟩ | ⟨n, r, rfl⟩ | ⟨p, op, rfl⟩
  · rw [loadPair_flags]; exact ⟨id, id⟩
  · rw [loadHalf_flags]; exact ⟨id, id⟩
  · rw [storePostModify_flags]; exact ⟨id, id⟩
  · simp [xorFlags]
  · simp [bitTestFlags]
  · rw [reportUnimplemented_flags]; exact ⟨id, id⟩

end Sys2Proof.Machine
end

section
/-! The register file and the flags as bytes and words (10_state.md R11 to R13, R24, R26). -/

namespace Sys2Proof.Machine

theorem resetCore_eq_of_mem_eq {s s' : State} (h : s'.mem = s.mem) : resetCore s' = resetCore s := by
  rw [resetCore, h, resetCore]

/-! A word and its two bytes. -/

@[simp] theorem joinBytes_zero_zero : joinBytes 0#8 0#8 = 0#16 := by decide

theorem joinBytes_toNat (hi lo : Byte) : (joinBytes hi lo).toNat = hi.toNat * 256 + lo.toNat := by
  rw [joinBytes, BitVec.toNat_append, ← Nat.shiftLeft_add_eq_or_of_lt lo.isLt, Nat.shiftLeft_eq]

theorem loByte_toNat (w : Word) : (loByte w).toNat = w.toNat % 256 := by
  simp [loByte]

theorem joinBytes_and_joinBytes (hi lo hi' lo' : Byte) :
    joinBytes hi lo &&& joinBytes hi' lo' = joinBytes (hi &&& hi') (lo &&& lo') := BitVec.and_append

/-- What `AF` keeps of a word: `v & 0xFFF0` (10_state.md R12). -/
theorem and_0xFFF0_eq_joinBytes (w : Word) : w &&& 0xFFF0 = joinBytes (hiByte w) (loByte w &&& 0xF0) := by
  have hmask : (0xFFF0 : Word) = joinBytes 0xFF 0xF0 := by decide
  have hff (v : Byte) : v &&& 0xFF = v := BitVec.and_allOnes
  conv_lhs => rw [← joinBytes_hi_lo w, hmask, joinBytes_and_joinBytes, hff]

/-! `F` as a byte (10_state.md R12, R13). -/

/-- The bit of `F` that a flag is. -/
def flagBit : Flag → Nat
  | .z => 7
  | .n => 6
  | .h => 5
  | .c => 4

theorem getLsbD_flagBit (f : Flag) (fs : Flags) : (flagsToByte fs).getLsbD (flagBit f) = testFlag f fs := by
  obtain ⟨z, n, h, c⟩ := fs
  revert z n h c
  cases f <;> decide

theorem testFlag_eq_true_iff (f : Flag) (fs : Flags) :
    testFlag f fs = true ↔
      flagsToByte fs &&& BitVec.twoPow 8 (flagBit f) = BitVec.twoPow 8 (flagBit f) := by
  have hmask : 0#8 ≠ BitVec.twoPow 8 (flagBit f) := by cases f <;> decide
  simp [BitVec.and_twoPow, getLsbD_flagBit, hmask]

theorem flagsToByte_and_0x0F (fs : Flags) : flagsToByte fs &&& 0x0F = 0 := by
  obtain ⟨z, n, h, c⟩ := fs
  revert z n h c
  decide

theorem readF_writeF (v : Byte) (s : State) : readF (writeF v s) = v &&& 0xF0 := flagsToByte_flagsOfByte v

theorem read16_af_write16_af (v : Word) (s : State) : read16 .af (write16 .af v s) = v &&& 0xFFF0 := by
  rw [read16_write16, if_pos rfl, and_0xFFF0_eq_joinBytes]

/-! The settled statements. -/

/-- Settles O47: every field of the reset state is a constant or the memory before. -/
theorem resetZeroesEveryRegisterAndKeepsMemory : Obligations.ResetZeroesEveryRegisterAndKeepsMemory := by
  unfold Obligations.ResetZeroesEveryRegisterAndKeepsMemory
  refine ⟨fun s => ?_, fun s s' => resetCore_eq_of_mem_eq, rfl, fun image => ⟨rfl, launch_mem image⟩⟩
  have hF : readF (resetCore s) = 0 := by rw [readF, resetCore_flags]; decide
  have hagain : resetCore (resetCore s) = resetCore s := resetCore_eq_of_mem_eq (resetCore_mem s)
  simp [read16, hF, hagain]

/-- Settles O49: each flag is one bit of `F`, and `set_flag` and `reset_flag` put one flag
(11_blocks_and_interfaces.md R46). -/
theorem flagAccessDisturbsNoOtherFlag : Obligations.FlagAccessDisturbsNoOtherFlag := by
  unfold Obligations.FlagAccessDisturbsNoOtherFlag
  refine ⟨fun s => ?_, fun f fs => ?_⟩
  · have hbit (f : Flag) : (readF s).getLsbD (flagBit f) = testFlag f s.flags := getLsbD_flagBit f s.flags
    have hmask (f : Flag) := testFlag_eq_true_iff f s.flags
    exact ⟨hbit .z, hbit .n, hbit .h, hbit .c, hmask .z, hmask .n, hmask .h, hmask .c⟩
  · refine ⟨testFlag_putFlag_same f true fs, testFlag_putFlag_same f false fs, fun g hg => ?_⟩
    exact ⟨testFlag_putFlag_other hg true fs, testFlag_putFlag_other hg false fs⟩

/-- Settles O50: the low bits of `F` are zero in its byte view, whatever was written. -/
theorem lowNibbleOfFIsAlwaysZero : Obligations.LowNibbleOfFIsAlwaysZero := by
  unfold Obligations.LowNibbleOfFIsAlwaysZero
  refine ⟨fun s => ⟨flagsToByte_and_0x0F s.flags, ?_⟩, fun s v => ⟨read16_af_write16_af v s, rfl⟩,
    fun s v => ⟨readF_writeF v s, rfl⟩⟩
  have hmask : (0x000F : Word) = joinBytes 0 0x0F := by decide
  rw [read16, hmask, joinBytes_and_joinBytes, readF, flagsToByte_and_0x0F]
  simp

/-- Settles O51: a pair is its halves, written one after the other and read joined. -/
theorem pairAndHalvesAreOneStorage : Obligations.PairAndHalvesAreOneStorage := by
  unfold Obligations.PairAndHalvesAreOneStorage
  intro s v w
  have haf : read16 .af (writeF v s) = joinBytes s.a (v &&& 0xF0) := by rw [read16, readF_writeF, writeF_a]
  have hbytes : (joinBytes v (loByte w)).toNat = v.toNat * 256 + w.toNat % 256 := by rw [joinBytes_toNat, loByte_toNat]
  refine ⟨rfl, rfl, rfl, rfl, rfl, rfl, rfl, haf,
    read16_write16 .bc w s, write16_bc_eq_halves w s, read16_write16 .de w s, write16_de_eq_halves w s,
    read16_write16 .hl w s, write16_hl_eq_halves w s, read16_af_write16_af w s, write16_af_eq_halves w s,
    fun q r => read8_write8 q r v s, fun r => ?_, rfl, congrArg BitVec.toNat (joinBytes_hi_lo w), hbytes⟩
  exact ⟨write8_flags r v s, write8_sp r v s, write8_pc r v s, write8_mem r v s, write8_report r v s⟩

end Sys2Proof.Machine
end

section
/-! The flag computations of the block alu_flags (11_blocks_and_interfaces.md R46). -/

namespace Sys2Proof.Machine

theorem testFlag_z_xorFlags (x y : Byte) : testFlag .z (xorFlags x y) = true ↔ x ^^^ y = 0 := beq_iff_eq

theorem testFlag_z_bitTestFlags (n : BitVec 3) (v : Byte) (fs : Flags) :
    testFlag .z (bitTestFlags n v fs) = true ↔ v.getLsbD n.toNat = false := by
  rw [← Bool.not_eq_true', testFlag, bitTestFlags]

theorem flagsToByte_setFlag (f : Flag) (fs : Flags) :
    flagsToByte (setFlag f fs) = flagsToByte fs ||| BitVec.twoPow 8 (flagBit f) := by
  obtain ⟨z, n, h, c⟩ := fs
  revert z n h c
  cases f <;> decide

theorem flagsToByte_resetFlag (f : Flag) (fs : Flags) :
    flagsToByte (resetFlag f fs) = flagsToByte fs &&& ~~~BitVec.twoPow 8 (flagBit f) := by
  obtain ⟨z, n, h, c⟩ := fs
  revert z n h c
  cases f <;> decide

/-- Settles O52: the flag results field by field, and one flag as the one bit of `F` that `flagBit` names. -/
theorem aluFlagsComputeTheFlagBytes : Obligations.AluFlagsComputeTheFlagBytes := by
  unfold Obligations.AluFlagsComputeTheFlagBytes
  refine ⟨fun x y => ⟨rfl, testFlag_z_xorFlags x y, rfl, rfl, rfl⟩,
    fun n v fs => ⟨testFlag_z_bitTestFlags n v fs, rfl, rfl, rfl⟩, fun fs => ?_⟩
  have hset (f : Flag) := flagsToByte_setFlag f fs
  have hreset (f : Flag) := flagsToByte_resetFlag f fs
  have htest (f : Flag) := (getLsbD_flagBit f fs).symm
  exact ⟨hset .z, hreset .z, hset .n, hreset .n, hset .h, hreset .h, hset .c, hreset .c,
    htest .z, htest .n, htest .h, htest .c⟩

end Sys2Proof.Machine
end

section
/-! What the decoder reads of the bytes at `PC`: an instruction's own bytes, and no other (20_memory.md R63, 30_encoding.md R88). -/

namespace Sys2Proof

/-! The number of bytes that the first one tells. -/

theorem lengthOfFirstByte_pos (b : Byte) : 0 < lengthOfFirstByte b := by
  unfold lengthOfFirstByte
  split
  · decide
  · split <;> decide

theorem lengthOfFirstByte_le_three (b : Byte) : lengthOfFirstByte b ≤ 3 := by
  unfold lengthOfFirstByte
  split
  · decide
  · split <;> decide

/-! The encoding of the instruction that each class of primary opcode stands for. -/

theorem encode_ldRpInstr {op : Byte} {r : Rp} (h : classifyPrimary op = .ldRpD16 r) (imm : Word) :
    lengthOfFirstByte op = 3 ∧ encode (ldRpInstr r imm) = [op, loByte imm, hiByte imm] := by
  have hop : ∀ b : Byte, classifyPrimary b = .ldRpD16 r → b = (encode (ldRpInstr r 0)).headD 0 := by
    cases r <;> decide
  obtain rfl := hop op h
  cases r <;> exact ⟨rfl, rfl⟩

theorem encode_ldRInstr {op : Byte} {r : R8} (h : classifyPrimary op = .ldRD8 r) (imm : Byte) :
    lengthOfFirstByte op = 2 ∧ encode (ldRInstr r imm) = [op, imm] := by
  have hop : ∀ b : Byte, classifyPrimary b = .ldRD8 r → b = (encode (ldRInstr r 0)).headD 0 := by
    cases r <;> decide
  obtain rfl := hop op h
  cases r <;> exact ⟨rfl, rfl⟩

theorem encode_xorInstr {op : Byte} {r : R8} (h : classifyPrimary op = .xorR r) :
    lengthOfFirstByte op = 1 ∧ encode (xorInstr r) = [op] := by
  revert op
  cases r <;> decide

theorem encode_ldHliA {op : Byte} (h : classifyPrimary op = .stHli) :
    lengthOfFirstByte op = 1 ∧ encode .ldHliA = [op] := by
  revert op; decide

theorem encode_ldHldA {op : Byte} (h : classifyPrimary op = .stHld) :
    lengthOfFirstByte op = 1 ∧ encode .ldHldA = [op] := by
  revert op; decide

theorem unimplPrimary_wf_of_unassigned {op : Byte} (hprefix : op ≠ Config.extendedPrefix)
    (h : classifyPrimary op = .unassigned) :
    lengthOfFirstByte op = 1 ∧ (Instr.unimplPrimary op).wf = true := by
  revert op; decide

@[simp] theorem ldRpInstr_wf (r : Rp) (imm : Word) : (ldRpInstr r imm).wf = true := by cases r <;> rfl
@[simp] theorem ldRInstr_wf (r : R8) (imm : Byte) : (ldRInstr r imm).wf = true := by cases r <;> rfl
@[simp] theorem xorInstr_wf (r : R8) : (xorInstr r).wf = true := by cases r <;> rfl

/-! The decoder over three bytes. -/

/-- On the primary page the decoded instruction is well formed and its encoding is the bytes it was read from. -/
theorem encode_decodePrimary {op : Byte} (hprefix : op ≠ Config.extendedPrefix) (b1 b2 : Byte) :
    (decodePrimary op b1 b2).wf = true ∧
    encode (decodePrimary op b1 b2) = [op, b1, b2].take (lengthOfFirstByte op) := by
  unfold decodePrimary
  cases h : classifyPrimary op with
  | ldRpD16 r =>
    obtain ⟨hlen, henc⟩ := encode_ldRpInstr h (joinBytes b2 b1)
    simp [hlen, henc]
  | ldRD8 r =>
    obtain ⟨hlen, henc⟩ := encode_ldRInstr h b1
    simp [hlen, henc]
  | stHli =>
    obtain ⟨hlen, henc⟩ := encode_ldHliA h
    simp [hlen, henc, Instr.wf]
  | stHld =>
    obtain ⟨hlen, henc⟩ := encode_ldHldA h
    simp [hlen, henc, Instr.wf]
  | xorR r =>
    obtain ⟨hlen, henc⟩ := encode_xorInstr h
    simp [hlen, henc]
  | unassigned =>
    obtain ⟨hlen, hwf⟩ := unimplPrimary_wf_of_unassigned hprefix h
    simp [hlen, hwf, encode]

theorem encode_decodeExtended (op : Byte) :
    (decodeExtended op).wf = true ∧ encode (decodeExtended op) = [Config.extendedPrefix, op] := by
  revert op; decide

/-- The instruction at three successive bytes is well formed, and its encoding is as many of them as the first one tells. -/
theorem encode_decodeBytes (b0 b1 b2 : Byte) :
    (decodeBytes b0 b1 b2).wf = true ∧
    encode (decodeBytes b0 b1 b2) = [b0, b1, b2].take (lengthOfFirstByte b0) := by
  unfold decodeBytes
  split
  · next h => subst h; exact encode_decodeExtended b1
  · next h => exact encode_decodePrimary h b1 b2

/-- The decoder looks at no byte after those that the first one tells. -/
theorem decodeBytes_congr {b0 b1 b2 b1' b2' : Byte} (h1 : 1 < lengthOfFirstByte b0 → b1' = b1)
    (h2 : 2 < lengthOfFirstByte b0 → b2' = b2) : decodeBytes b0 b1' b2' = decodeBytes b0 b1 b2 := by
  unfold decodeBytes
  split
  · next h => rw [h1 (h ▸ by decide)]
  · unfold decodePrimary
    cases h : classifyPrimary b0 with
    | ldRpD16 r =>
      have hlen := (encode_ldRpInstr h 0).1
      rw [h1 (by omega), h2 (by omega)]
    | ldRD8 r =>
      have hlen := (encode_ldRInstr h 0).1
      rw [h1 (by omega)]
    | stHli => rfl
    | stHld => rfl
    | xorR r => rfl
    | unassigned => rfl

namespace Machine

theorem fetchBytes_eq_take (s : State) :
    fetchBytes s = [fetchAt 0 s, fetchAt 1 s, fetchAt 2 s].take (lengthOfFirstByte (fetchAt 0 s)) := by
  have hthree : [fetchAt 0 s, fetchAt 1 s, fetchAt 2 s] = (List.range 3).map fun k => fetchAt (BitVec.ofNat 16 k) s := rfl
  rw [hthree, ← List.map_take, List.take_range, Nat.min_eq_left (lengthOfFirstByte_le_three _), fetchBytes]

/-- Settles O8: the encoding of a decoded instruction is the bytes it was decoded from, and the decoder looks at no other. -/
theorem fetchReadsExactlyTheInstructionBytes : Obligations.FetchReadsExactlyTheInstructionBytes := by
  unfold Obligations.FetchReadsExactlyTheInstructionBytes
  refine ⟨fun s => ?_, fun s s' _ hbytes => ?_⟩
  · rw [fetchBytes_eq_take]
    exact encode_decodeBytes _ _ _
  · have hfirst : fetchAt 0 s' = fetchAt 0 s := hbytes 0 (lengthOfFirstByte_pos _)
    rw [fetchInstr, hfirst]
    exact decodeBytes_congr (hbytes 1) (hbytes 2)

end Machine

end Sys2Proof
end

section
/-! The memory in one step: what the two stores write, and that nothing else writes (20_memory.md R60 to R73). -/

namespace Sys2Proof.Machine

/-! The two stores. -/

theorem read16_hl_storePostModify (d : Word) (s : State) :
    read16 .hl (storePostModify d s) = read16 .hl s + d := by
  simp [read16, storePostModify]

/-- `storePostModify` moves `HL` and `PC`, reports `Ok`, and changes no other register. -/
theorem storePostModify_eq (d : Word) (s : State) :
    storePostModify d s = { s with
      h := (storePostModify d s).h, l := (storePostModify d s).l, mem := (storePostModify d s).mem,
      pc := s.pc + 1, report := some .ok } := rfl

/-- `MemRead` after a store (20_memory.md R67). -/
theorem memRead_storePostModify {s : State} (hs : StateInv s) (d x : Word) :
    memRead (storePostModify d s).mem x = if x = read16 .hl s then s.a else memRead s.mem x :=
  memRead_memWrite hs _ _ x

/-- Settles O36: a fetch after the store is a read after a write, whatever the distance from `PC`. -/
theorem storeIsSeenByEveryLaterFetch : Obligations.StoreIsSeenByEveryLaterFetch := by
  unfold Obligations.StoreIsSeenByEveryLaterFetch
  intro s hs i hi hfetch
  have hseen (d k : Word) := memRead_storePostModify hs d ((storePostModify d s).pc + k)
  rw [step, hfetch]
  rcases hi with rfl | rfl
  · exact ⟨_, rfl, storePostModify_eq 1 s, read16_hl_storePostModify 1 s, hseen 1⟩
  · refine ⟨_, rfl, storePostModify_eq (-1) s, ?_, hseen (-1)⟩
    exact (read16_hl_storePostModify (-1) s).trans (BitVec.sub_eq_add_neg _ _).symm

/-! The instructions that are no stores. -/

theorem familyOf_decodeExtended_ne_store (op : Byte) : familyOf (decodeExtended op) ≠ .store := by
  unfold decodeExtended
  cases classifyExtended op with
  | bit n q => simp
  | unassigned => simp [familyOf]

/-- The two stores have the opcodes 0x22 and 0x32 alone (30_encoding.md R85). -/
theorem opcode_of_familyOf_store {b0 b1 b2 : Byte} (h : familyOf (decodeBytes b0 b1 b2) = .store) :
    b0 = 0x22 ∨ b0 = 0x32 := by
  have hprimary : ∀ op : Byte, familyOf (decodePrimary op 0 0) = .store → op = 0x22 ∨ op = 0x32 := by decide
  unfold decodeBytes at h
  split at h
  · exact absurd h (familyOf_decodeExtended_ne_store b1)
  · exact hprimary b0 (familyOf_decodePrimary b0 b1 b2 ▸ h)

/-- An instruction leaves the memory as it is, or it is one of the stores. -/
theorem exec_mem_eq_or_store {i : Instr} {s t : State} (ht : exec i s = .next t) :
    t.mem = s.mem ∨ familyOf i = .store ∧ ∃ d, t = storePostModify d s := by
  obtain ⟨f, hop, hexec⟩ := exec_familyOp i
  obtain rfl : f s = t := Host.Outcome.next.inj ((hexec s).symm.trans ht)
  generalize familyOf i = F, i.length = n at hop ⊢
  cases hop with
  | loadPair r imm => exact .inl (loadPair_mem r imm s)
  | loadHalf r imm => exact .inl (loadHalf_mem r imm s)
  | store d => exact .inr ⟨rfl, d, rfl⟩
  | xor r => exact .inl (xorWith_mem r s)
  | bitTest n r => exact .inl (bitTest_mem n r s)
  | unassignedPrimary op => exact .inl (reportUnimplemented_mem .primary op s)
  | unassignedExtended op => exact .inl (reportUnimplemented_mem .extended op s)

/-- Settles O42: a step that changes memory is a store, its opcode tells so, and a store writes the byte at `HL` alone. -/
theorem onlyStoresChangeMemoryAndOnlyAtHl : Obligations.OnlyStoresChangeMemoryAndOnlyAtHl := by
  unfold Obligations.OnlyStoresChangeMemoryAndOnlyAtHl
  intro s t x hs ht hchanged
  rcases exec_mem_eq_or_store ht with hmem | ⟨hfamily, d, rfl⟩
  · exact absurd (congrArg (memRead · x) hmem) hchanged
  · have hread := memRead_storePostModify hs d x
    have hx : x = read16 .hl s := by
      by_contra hx
      exact hchanged (hread.trans (if_neg hx))
    exact ⟨hx, hread.trans (if_pos hx), fetchAt_zero s ▸ opcode_of_familyOf_store hfamily⟩

/-! Addresses modulo 65536 (20_memory.md R65). -/

theorem fetchAt_ofNat (k : Nat) (s : State) :
    fetchAt (BitVec.ofNat 16 k) s = Memory.lookup s.mem ((s.pc.toNat + k) % 65536) := by
  simp [fetchAt, memRead, BitVec.toNat_add]

theorem fetchAt_eq_memRead {s : State} {pc k a : Word} (hpc : s.pc = pc) (ha : pc + k = a) :
    fetchAt k s = memRead s.mem a := by
  rw [fetchAt, hpc, ha]

theorem loadPair_sp_eq (v : Word) (s : State) :
    loadPair .sp v s = { s with sp := v, pc := s.pc + 3, report := some .ok } := rfl

theorem step_eq_exec_decodeExtended {s : State} (h : memRead s.mem s.pc = 0xCB) :
    step s = exec (decodeExtended (fetchAt 1 s)) s := by
  rw [step, fetchInstr, fetchAt_zero, h]
  rfl

theorem step_xorA {s : State} (h : memRead s.mem s.pc = 0xAF) : step s = .next (xorWith .a s) := by
  rw [step, fetchInstr, fetchAt_zero, h]
  rfl

/-- Settles O37: a fetch adds to `PC` and a store to `HL` modulo 65536, and every instruction completes. -/
theorem addressesWrapAtTheTopOfMemory : Obligations.AddressesWrapAtTheTopOfMemory := by
  unfold Obligations.AddressesWrapAtTheTopOfMemory
  intro s byteAt
  refine ⟨?_, fun hpc hop => ?_, fun hpc hop => ?_, fun hpc hop => ?_, fun hpc hop => ?_, fun hhl => ?_, fun hhl => ?_, ?_⟩
  · have hbyte (k : Nat) : byteAt k = fetchAt (BitVec.ofNat 16 k) s := (fetchAt_ofNat k s).symm
    rw [hbyte, hbyte, hbyte]
    exact step_eq s
  · rw [step_ldSp (hpc ▸ hop), fetchAt_eq_memRead hpc (a := 0) rfl, fetchAt_eq_memRead hpc (a := 0xFFFF) rfl,
      loadPair_sp_eq, hpc]
    rfl
  · rw [step_ldSp (hpc ▸ hop), fetchAt_eq_memRead hpc (a := 1) rfl, fetchAt_eq_memRead hpc (a := 0) rfl,
      loadPair_sp_eq, hpc]
    rfl
  · rw [step_eq_exec_decodeExtended (hpc ▸ hop), fetchAt_eq_memRead hpc (a := 0) rfl]
  · exact ⟨_, step_xorA (hpc ▸ hop), by rw [xorWith_pc, hpc]; rfl⟩
  · exact ⟨_, rfl, by rw [read16_hl_storePostModify, hhl]; rfl, storePostModify_flags 1 s⟩
  · exact ⟨_, rfl, by rw [read16_hl_storePostModify, hhl]; rfl, storePostModify_flags (-1) s⟩
  · obtain ⟨f, -, hexec⟩ := exec_familyOp (fetchInstr s)
    exact ⟨f s, hexec s⟩

end Sys2Proof.Machine
end

section
/-! The decoder over byte lists and the encoder: what decodes, to what, and with which bytes left over
(30_encoding.md R80 to R93). -/

namespace Sys2Proof

/-! The decoder over a byte list, in terms of the decoder over three bytes. -/

theorem lengthOfFirstByte_cases (b : Byte) :
    lengthOfFirstByte b = 1 ∨ lengthOfFirstByte b = 2 ∨ lengthOfFirstByte b = 3 := by
  have hpos := lengthOfFirstByte_pos b
  have hle := lengthOfFirstByte_le_three b
  omega

/-- As many bytes as the first one tells are enough: the instruction is the one at any three bytes that begin with them. -/
theorem decode_take_append (b0 b1 b2 : Byte) (rest : List Byte) :
    decode ([b0, b1, b2].take (lengthOfFirstByte b0) ++ rest) = .ok (decodeBytes b0 b1 b2, rest) := by
  rcases lengthOfFirstByte_cases b0 with h | h | h
  · have hunread : decodeBytes b0 0 0 = decodeBytes b0 b1 b2 := decodeBytes_congr (by omega) (by omega)
    simpa [decode, h] using hunread
  · have hunread : decodeBytes b0 b1 0 = decodeBytes b0 b1 b2 := decodeBytes_congr (fun _ => rfl) (by omega)
    simpa [decode, h] using hunread
  · simp [decode, h]

/-- What decodes is exactly what begins with the bytes of an instruction. -/
theorem decode_eq_ok_iff {bs : List Byte} {i : Instr} {rest : List Byte} :
    decode bs = .ok (i, rest) ↔
      ∃ b0 b1 b2, i = decodeBytes b0 b1 b2 ∧ bs = [b0, b1, b2].take (lengthOfFirstByte b0) ++ rest := by
  constructor
  · intro h
    cases bs with
    | nil => exact nomatch h
    | cons b0 tail =>
      unfold decode at h
      dsimp only at h
      split at h
      · next hlen =>
        cases h
        exact ⟨b0, 0, 0, rfl, by simp [hlen]⟩
      · next b1 _ hlen =>
        cases h
        exact ⟨b0, b1, 0, rfl, by simp [hlen]⟩
      · next b1 b2 _ hlen =>
        cases h
        exact ⟨b0, b1, b2, rfl, by simp [hlen]⟩
      · exact nomatch h
  · rintro ⟨b0, b1, b2, rfl, rfl⟩
    exact decode_take_append b0 b1 b2 rest

/-- Three bytes always hold an instruction. -/
theorem decode_three (b0 b1 b2 : Byte) :
    decode [b0, b1, b2] = .ok (decodeBytes b0 b1 b2, [b0, b1, b2].drop (lengthOfFirstByte b0)) := by
  conv_lhs => rw [← List.take_append_drop (lengthOfFirstByte b0) [b0, b1, b2]]
  exact decode_take_append b0 b1 b2 _

/-! The decoder gives back every well-formed instruction from the encoder's own bytes. -/

theorem decodeBytes_encode {i : Instr} (h : i.wf = true) :
    decodeBytes ((encode i).getD 0 0) ((encode i).getD 1 0) ((encode i).getD 2 0) = i := by
  cases i <;> simp only [encode, List.getD_cons_zero, List.getD_cons_succ, List.getD_nil]
  case ldBcD16 imm => exact congrArg Instr.ldBcD16 (joinBytes_hi_lo imm)
  case ldDeD16 imm => exact congrArg Instr.ldDeD16 (joinBytes_hi_lo imm)
  case ldHlD16 imm => exact congrArg Instr.ldHlD16 (joinBytes_hi_lo imm)
  case ldSpD16 imm => exact congrArg Instr.ldSpD16 (joinBytes_hi_lo imm)
  case unimplPrimary op =>
    obtain ⟨hop, hprefix⟩ : op ∉ assignedPrimary ∧ op ≠ Config.extendedPrefix := by simpa [Instr.wf] using h
    exact (if_neg hprefix).trans (Laws.OpcodePages.decodePrimary_of_not_mem_assignedPrimary hop 0 0)
  case unimplExtended op =>
    have hop : assignedExtended op = false := by simpa [Instr.wf] using h
    exact (if_pos rfl).trans (Laws.OpcodePages.decodeExtended_of_assignedExtended_eq_false hop)
  all_goals rfl

/-- Settles O1: a well-formed instruction is the one at some three bytes, and its encoding is as many of them as the first
one tells. -/
theorem decodeOfEncodeIsTheInstruction : Obligations.DecodeOfEncodeIsTheInstruction := by
  unfold Obligations.DecodeOfEncodeIsTheInstruction
  intro i rest hwf
  obtain ⟨b0, b1, b2, rfl⟩ : ∃ b0 b1 b2, decodeBytes b0 b1 b2 = i := ⟨_, _, _, decodeBytes_encode hwf⟩
  rw [(encode_decodeBytes b0 b1 b2).2]
  exact decode_take_append b0 b1 b2 rest

/-- Settles O2: the bytes taken from the list are the encoding of the instruction at them. -/
theorem encodeOfDecodeIsTheBytes : Obligations.EncodeOfDecodeIsTheBytes := by
  unfold Obligations.EncodeOfDecodeIsTheBytes
  intro bs i rest h
  obtain ⟨b0, b1, b2, rfl, rfl⟩ := decode_eq_ok_iff.1 h
  obtain ⟨hwf, henc⟩ := encode_decodeBytes b0 b1 b2
  exact ⟨hwf, by rw [henc]⟩

/-- Settles O3: what decodes begins with the bytes its first one tells, and a list that holds as many begins with them. -/
theorem decodeRejectsOnlyATruncatedInstruction : Obligations.DecodeRejectsOnlyATruncatedInstruction := by
  unfold Obligations.DecodeRejectsOnlyATruncatedInstruction
  intro bs
  constructor
  · rintro ⟨i, rest, h⟩
    obtain ⟨b0, b1, b2, -, rfl⟩ := decode_eq_ok_iff.1 h
    rcases lengthOfFirstByte_cases b0 with hlen | hlen | hlen <;> exact ⟨b0, _, by rw [hlen]; rfl, by simp [hlen]⟩
  · rintro ⟨b0, tail, rfl, hle⟩
    rw [List.length_cons] at hle
    rcases lengthOfFirstByte_cases b0 with hlen | hlen | hlen
    · exact ⟨_, tail, decode_eq_ok_iff.2 ⟨b0, 0, 0, rfl, by simp [hlen]⟩⟩
    · obtain ⟨b1, tail, rfl⟩ := List.exists_cons_of_length_pos (l := tail) (by omega)
      exact ⟨_, tail, decode_eq_ok_iff.2 ⟨b0, b1, 0, rfl, by simp [hlen]⟩⟩
    · obtain ⟨b1, tail, rfl⟩ := List.exists_cons_of_length_pos (l := tail) (by omega)
      rw [List.length_cons] at hle
      obtain ⟨b2, tail, rfl⟩ := List.exists_cons_of_length_pos (l := tail) (by omega)
      exact ⟨_, tail, decode_eq_ok_iff.2 ⟨b0, b1, b2, rfl, by simp [hlen]⟩⟩

/-- Settles O5: each list is the encoding of a well-formed instruction, so O1 decodes it. -/
theorem wordsOfEachFamilyDecode : Obligations.WordsOfEachFamilyDecode := by
  unfold Obligations.WordsOfEachFamilyDecode
  have hdecode (i : Instr) (h : i.wf = true) : decode (encode i ++ []) = .ok (i, []) :=
    decodeOfEncodeIsTheInstruction i [] h
  exact ⟨hdecode (.ldSpD16 0xFFFE) rfl, hdecode (.ldAD8 0x5A) rfl, hdecode .ldHliA rfl, hdecode .ldHldA rfl,
    hdecode .xorA rfl, hdecode .bit7H rfl, hdecode (.unimplPrimary 0x36) rfl, hdecode (.unimplExtended 0x46) rfl⟩

/-! The bit fields and the selector tables. -/

/-- Settles O6: each field is a quotient and a remainder of the byte, and the rest is arithmetic. -/
theorem opcodeByteSplitsIntoItsFields : Obligations.OpcodeByteSplitsIntoItsFields := by
  unfold Obligations.OpcodeByteSplitsIntoItsFields
  intro b
  have hb : b.toNat < 256 := b.isLt
  simp only [fieldsOf, BitVec.extractLsb'_toNat, Nat.shiftRight_eq_div_pow, Nat.reducePow, true_and]
  omega

/-- Settles O7: the entries of the two tables, one by one. -/
theorem selectorTablesAsEnumerated : Obligations.SelectorTablesAsEnumerated := by
  unfold Obligations.SelectorTablesAsEnumerated
  decide

end Sys2Proof
end

section
/-! The bytes at `PC` in one step: how far they move `PC`, which page they are read on, and a table word put there
(30_encoding.md R87, R88, R93). -/

namespace Sys2Proof.Machine

/-- The fetched instruction is as long as its first byte tells (30_encoding.md R88). -/
theorem length_fetchInstr (s : State) : (fetchInstr s).length = lengthOfFirstByte (memRead s.mem s.pc) := by
  rw [Instr.length, (fetchReadsExactlyTheInstructionBytes.1 s).2, fetchBytes, fetchAt_zero, List.length_map,
    List.length_range]

/-- Settles O15: the fetched instruction moves `PC` by its length, which its first byte tells. -/
theorem stepMovesPcByTheLengthOfTheFirstByte : Obligations.StepMovesPcByTheLengthOfTheFirstByte := by
  unfold Obligations.StepMovesPcByTheLengthOfTheFirstByte
  intro s t ht
  obtain ⟨t', hexec, hpc, -⟩ := everyInstructionCompletesPastItsBytes (fetchInstr s) s
  obtain rfl : t' = t := Host.Outcome.next.inj (hexec.symm.trans ht)
  rw [hpc, length_fetchInstr, lengthOfFirstByte]
  simp only [apply_ite (BitVec.ofNat 16)]
  rfl

/-! The two pages. -/

theorem step_eq_exec_decodePrimary {s : State} (h : memRead s.mem s.pc ≠ 0xCB) :
    step s = exec (decodePrimary (memRead s.mem s.pc) (fetchAt 1 s) (fetchAt 2 s)) s := by
  rw [step, fetchInstr, fetchAt_zero, decodeBytes, Config.extendedPrefix, if_neg h]

theorem step_ldA {s : State} (h : memRead s.mem s.pc = 0x3E) : step s = .next (loadHalf .a (fetchAt 1 s) s) := by
  rw [step_eq_exec_decodePrimary (h ▸ by decide), h]
  rfl

/-- Settles O35: the prefix, and no other first byte, sends the next byte to the extended page. -/
theorem prefixSelectsTheExtendedPageOnce : Obligations.PrefixSelectsTheExtendedPageOnce := by
  unfold Obligations.PrefixSelectsTheExtendedPageOnce
  intro s
  refine ⟨fun hop => ?_, step_eq_exec_decodePrimary, fun hop himm => ?_, fun hop hlo hhi => ?_⟩
  · have hstep := step_eq_exec_decodeExtended hop
    obtain ⟨t, ht, hpc, -⟩ := everyInstructionCompletesPastItsBytes (decodeExtended (fetchAt 1 s)) s
    have hlen : (decodeExtended (fetchAt 1 s)).length = 2 := by rw [Instr.length, (encode_decodeExtended _).2]; rfl
    refine ⟨t, hstep.trans ht, hstep, by rw [hpc, hlen]; rfl, fun hnext => ?_⟩
    rw [fetchAt, hnext] at ht
    cases ht
    rfl
  · rw [step_ldA hop, fetchAt, himm]
    rfl
  · rw [step_ldSp hop, fetchAt, fetchAt, hhi, hlo]
    rfl

/-! A table word: its three bytes, decoded or stored. -/

theorem decodeTableWord_eq {nbits w : Nat} {b0 b1 b2 : Byte} (h : tableBytes nbits w = (b0, b1, b2)) :
    decodeTableWord nbits w = some (decodeBytes b0 b1 b2) := by
  rw [decodeTableWord, h]
  simp only [decode_three]

theorem fetchInstr_storeTableWord {s : State} (hs : StateInv s) {nbits w : Nat} {b0 b1 b2 : Byte}
    (h : tableBytes nbits w = (b0, b1, b2)) : fetchInstr (storeTableWord nbits w s) = decodeBytes b0 b1 b2 := by
  have hwf0 := memWrite_wf hs s.pc b0
  have hwf1 := memWrite_wf hwf0 (s.pc + 1) b1
  simp only [fetchInstr, fetchAt, storeTableWord, h, memRead_memWrite hwf1, memRead_memWrite hwf0, memRead_memWrite hs]
  simp

/-- Settles O11: the next step fetches the stored bytes. -/
theorem stepAfterWithFetchWordRunsTheTableWord : Obligations.StepAfterWithFetchWordRunsTheTableWord := by
  unfold Obligations.StepAfterWithFetchWordRunsTheTableWord
  intro s nbits w i hs hi
  obtain ⟨b0, b1, b2, hbytes⟩ : ∃ b0 b1 b2, tableBytes nbits w = (b0, b1, b2) := ⟨_, _, _, rfl⟩
  obtain rfl : decodeBytes b0 b1 b2 = i := Option.some.inj ((decodeTableWord_eq hbytes).symm.trans hi)
  have hfetch : fetchInstr (s.withFetchWord nbits w) = decodeBytes b0 b1 b2 := fetchInstr_storeTableWord hs hbytes
  exact ⟨by rw [step, hfetch], rfl⟩

end Sys2Proof.Machine
end

section
/-! One step: which instruction it runs, that it completes, what it depends on, and that it is the pseudocode of the spec
(35_step_cycle.md R101 to R106). -/

namespace Sys2Proof.Machine

/-! What the members of a family do, by the registers their encoding selects (30_encoding.md R92). -/

theorem exec_ldRpInstr (r : Rp) (imm : Word) (s : State) : exec (ldRpInstr r imm) s = .next (loadPair r imm s) := by
  cases r <;> rfl

theorem exec_ldRInstr (r : R8) (imm : Byte) (s : State) : exec (ldRInstr r imm) s = .next (loadHalf r imm s) := by
  cases r <;> rfl

theorem exec_xorInstr (r : R8) (s : State) : exec (xorInstr r) s = .next (xorWith r s) := by
  cases r <;> rfl

theorem exec_bitInstr (n : BitVec 3) (r : R8) (s : State) : exec (bitInstr n r) s = .next (bitTest n r s) := by
  have hn : ∀ m : BitVec 3, m = 0 ∨ m = 1 ∨ m = 2 ∨ m = 3 ∨ m = 4 ∨ m = 5 ∨ m = 6 ∨ m = 7 := by decide
  rcases hn n with rfl | rfl | rfl | rfl | rfl | rfl | rfl | rfl <;> cases r <;> rfl

/-! `F` as the byte the pseudocode computes (44_xor.md R150, 45_bit.md R160). -/

/-- The flags of R150 are what its byte, 0x80 or 0x00, stores. -/
theorem flagsOfByte_pseudoXor (x y : Byte) : flagsOfByte (if x ^^^ y = 0 then 0x80 else 0x00) = xorFlags x y := by
  rw [← xorFlags_toByte, flagsOfByte_flagsToByte]

/-- The `t` of R160 is the tested bit. -/
theorem shiftRight_and_one (v : Byte) (n : Nat) : v >>> n &&& 1 = if v.getLsbD n then 1 else 0 := by
  rw [show (1 : Byte) = 1#8 from rfl, BitVec.and_one_eq_setWidth_ofBool_getLsbD, BitVec.getLsbD_ushiftRight,
    Nat.add_zero]
  cases v.getLsbD n <;> rfl

/-- The flags of R160 are what its byte stores. -/
theorem flagsOfByte_pseudoBit (n : BitVec 3) (v : Byte) (fs : Flags) :
    flagsOfByte (((1 - (v >>> n.toNat &&& 1)) <<< 7) ||| 0x20 ||| (flagsToByte fs &&& 0x10)) = bitTestFlags n v fs := by
  obtain ⟨z, n', h, c⟩ := fs
  rw [shiftRight_and_one, bitTestFlags]
  generalize v.getLsbD n.toNat = bit
  revert z n' h c bit
  decide

/-! The pseudocode of each family, entered after its opcode was fetched, ends in the state of the family's meaning:
`PC` may move before the operation, since no register operand is `PC` (35_step_cycle.md R105). -/

theorem read8_withPc (r : R8) (pc : Word) (s : State) : read8 r { s with pc := pc } = read8 r s := by
  cases r <;> rfl

theorem inc16_inc16 (w : Word) : inc16 (inc16 w) = w + 2 := BitVec.add_assoc w 1 1

theorem inc16_add_two (w : Word) : inc16 (w + 2) = w + 3 := BitVec.add_assoc w 2 1

theorem fetchByte_fst (s : State) : (fetchByte s).1 = memRead s.mem s.pc := rfl

theorem memRead_after_fetchByte (s : State) : memRead (fetchByte s).2.mem (fetchByte s).2.pc = fetchAt 1 s := rfl

theorem pseudoLdRp_eq_loadPair (r : Rp) (s : State) :
    returning .ok (pseudoLdRp r (fetchByte s).2) = loadPair r (joinBytes (fetchAt 2 s) (fetchAt 1 s)) s := by
  simp only [pseudoLdRp, readImm16, readImm8, fetchByte, inc16_inc16, inc16_add_two]
  cases r <;> rfl

theorem pseudoLdR_eq_loadHalf (r : R8) (s : State) :
    returning .ok (pseudoLdR r (fetchByte s).2) = loadHalf r (fetchAt 1 s) s := by
  simp only [pseudoLdR, readImm8, fetchByte, inc16_inc16]
  cases r <;> rfl

theorem pseudoXor_eq_xorWith (r : R8) (s : State) : returning .ok (pseudoXor r (fetchByte s).2) = xorWith r s := by
  simp only [pseudoXor, fetchByte, read8_withPc, write8_a_eq, writeF, flagsOfByte_pseudoXor]
  rfl

theorem pseudoBit_eq_bitTest (n : BitVec 3) (r : R8) (s : State) :
    returning .ok (pseudoBit n r (fetchByte (fetchByte s).2).2) = bitTest n r s := by
  simp only [pseudoBit, fetchByte, read8_withPc, readF, writeF, flagsOfByte_pseudoBit, inc16_inc16]
  rfl

/-- Settles O13: on each page, class by class, the pseudocode of the class ends in the state of its meaning. -/
theorem stepIsThePseudocodeOfTheSpec : Obligations.StepIsThePseudocodeOfTheSpec := by
  unfold Obligations.StepIsThePseudocodeOfTheSpec
  intro s
  by_cases hprefix : memRead s.mem s.pc = 0xCB
  · rw [step_eq_exec_decodeExtended hprefix, decodeExtended, pseudoStep]
    simp only [fetchByte_fst, hprefix, if_true, memRead_after_fetchByte]
    cases classifyExtended (fetchAt 1 s) with
    | bit n r => simp only [exec_bitInstr, pseudoBit_eq_bitTest]
    | unassigned => rfl
  · rw [step_eq_exec_decodePrimary hprefix, decodePrimary, pseudoStep]
    simp only [fetchByte_fst, hprefix, if_false]
    cases classifyPrimary (memRead s.mem s.pc) with
    | ldRpD16 r => simp only [exec_ldRpInstr, pseudoLdRp_eq_loadPair]
    | ldRD8 r => simp only [exec_ldRInstr, pseudoLdR_eq_loadHalf]
    | stHli => rfl
    | stHld => rfl
    | xorR r => simp only [exec_xorInstr, pseudoXor_eq_xorWith]
    | unassigned => rfl

/-- Settles O10: the decoder gives back the instruction from its encoding and looks at no byte after it. -/
theorem stepRunsThePlacedEncoding : Obligations.StepRunsThePlacedEncoding := by
  unfold Obligations.StepRunsThePlacedEncoding
  intro s i hwf hplaced
  obtain ⟨b0, b1, b2, rfl⟩ : ∃ b0 b1 b2, decodeBytes b0 b1 b2 = i := ⟨_, _, _, decodeBytes_encode hwf⟩
  simp only [(encode_decodeBytes b0 b1 b2).2, List.length_take, List.getElem_take] at hplaced
  have hfirst : fetchAt 0 s = b0 := hplaced 0 (by simpa using lengthOfFirstByte_pos b0)
  have hfetch : fetchInstr s = decodeBytes b0 b1 b2 := by
    rw [fetchInstr, hfirst]
    exact decodeBytes_congr (fun hlt => hplaced 1 (by simpa using hlt)) (fun hlt => hplaced 2 (by simpa using hlt))
  rw [step, hfetch]

/-- Settles O12: every instruction completes, and each operation leaves one of the two results. -/
theorem everyStepCompletes : Obligations.EveryStepCompletes := by
  unfold Obligations.EveryStepCompletes
  intro s
  obtain ⟨t, ht, -⟩ := everyInstructionCompletesPastItsBytes (fetchInstr s) s
  refine ⟨t, ht, ?_⟩
  rcases step_cases ht with ⟨r, imm, rfl⟩ | ⟨r, imm, rfl⟩ | ⟨k, rfl⟩ | ⟨r, rfl⟩ | ⟨n, r, rfl⟩ | ⟨p, op, rfl⟩
  · exact .inl (loadPair_report r imm s)
  · exact .inl (loadHalf_report r imm s)
  · exact .inl (storePostModify_report k s)
  · exact .inl (xorWith_report r s)
  · exact .inl (bitTest_report n r s)
  · exact .inr ⟨op, _, p, rfl⟩

/-- No instruction reads the result of the step before it (60_exceptions.md R178). -/
theorem exec_withReport (i : Instr) (report : Option StepResult) (s : State) :
    exec i { s with report := report } = exec i s := by
  cases i <;> rfl

/-- Settles O38: canonical memories of one content are one list, and no instruction reads the result before it. -/
theorem stepDependsOnlyOnRegistersAndMemoryContent : Obligations.StepDependsOnlyOnRegistersAndMemoryContent := by
  unfold Obligations.StepDependsOnlyOnRegistersAndMemoryContent
  refine ⟨fun s s' hs hs' hread hregs => ?_, fun s m m' => rfl⟩
  have hmem : s'.mem = s.mem := memory_ext hs' hs hread
  rw [hmem] at hregs
  rw [hregs]
  exact exec_withReport (fetchInstr s) s'.report s

/-- Settles O9: three bytes decode to the instruction at them, which is the one fetched. -/
theorem stepRunsTheDecodedInstruction : Obligations.StepRunsTheDecodedInstruction := by
  unfold Obligations.StepRunsTheDecodedInstruction
  intro s i rest h
  rw [decode_three] at h
  cases h
  rw [step, fetchInstr, fetchAt_zero]
  rfl

end Sys2Proof.Machine
end

section
/-! LD rp,d16 (41_ld_rp_d16.md): the next state field by field, the step that runs it; and the frame of all loads. -/

namespace Sys2Proof.Machine

/-! The next state of each pair; that of `SP` is `loadPair_sp_eq`. -/

theorem loadPair_bc_eq (v : Word) (s : State) :
    loadPair .bc v s = { s with b := hiByte v, c := loByte v, pc := s.pc + 3, report := some .ok } := rfl

theorem loadPair_de_eq (v : Word) (s : State) :
    loadPair .de v s = { s with d := hiByte v, e := loByte v, pc := s.pc + 3, report := some .ok } := rfl

theorem loadPair_hl_eq (v : Word) (s : State) :
    loadPair .hl v s = { s with h := hiByte v, l := loByte v, pc := s.pc + 3, report := some .ok } := rfl

/-! The operation of an instruction, from its family. -/

theorem exists_familyOp_of_exec {i : Instr} {F : Family} {s t : State} (hF : familyOf i = F) (ht : exec i s = .next t) :
    ∃ n f, FamilyOp F n f ∧ t = f s := by
  obtain ⟨f, hop, hexec⟩ := exec_familyOp i
  exact ⟨i.length, f, hF ▸ hop, Host.Outcome.next.inj (ht.symm.trans (hexec s))⟩

theorem exists_eq_loadPair_of_familyOf {i : Instr} {r : Rp} {s t : State} (hr : familyOf i = .loadPair r)
    (ht : exec i s = .next t) : ∃ imm, t = loadPair r imm s := by
  obtain ⟨n, f, hop, rfl⟩ := exists_familyOp_of_exec hr ht
  cases hop with
  | loadPair _ imm => exact ⟨imm, rfl⟩

theorem exists_eq_loadHalf_of_familyOf {i : Instr} {r : R8} {s t : State} (hr : familyOf i = .loadHalf r)
    (ht : exec i s = .next t) : ∃ imm, t = loadHalf r imm s := by
  obtain ⟨n, f, hop, rfl⟩ := exists_familyOp_of_exec hr ht
  cases hop with
  | loadHalf _ imm => exact ⟨imm, rfl⟩

/-- Settles O22: a load of a family is that family's one operation, for some immediate, and each operation writes its
destination, `PC` and the result alone. -/
theorem loadsFrame : Obligations.LoadsFrame := by
  unfold Obligations.LoadsFrame
  intro i s t ht
  refine ⟨fun hr => ?_, fun hr => ?_, fun hr => ?_, fun hr => ?_, fun hr => ?_, fun hr => ?_, fun hr => ?_, fun hr => ?_,
    fun hr => ?_, fun hr => ?_, fun hr => ?_, ?_⟩
  iterate 4
    · obtain ⟨imm, rfl⟩ := exists_eq_loadPair_of_familyOf hr ht
      rfl
  iterate 7
    · obtain ⟨imm, rfl⟩ := exists_eq_loadHalf_of_familyOf hr ht
      rfl
  · rintro (⟨r, hr⟩ | ⟨r, hr⟩) x
    · obtain ⟨imm, rfl⟩ := exists_eq_loadPair_of_familyOf hr ht
      rw [loadPair_mem]
    · obtain ⟨imm, rfl⟩ := exists_eq_loadHalf_of_familyOf hr ht
      rw [loadHalf_mem]

/-- Settles O16: each of the four instructions is the load of its pair, whose next state is known field by field. -/
theorem loadPairTakesItsImmediate : Obligations.LoadPairTakesItsImmediate := by
  unfold Obligations.LoadPairTakesItsImmediate
  intro imm s
  rw [← loadPair_bc_eq, ← loadPair_de_eq, ← loadPair_hl_eq, ← loadPair_sp_eq]
  exact ⟨exec_ldRpInstr .bc imm s, exec_ldRpInstr .de imm s, exec_ldRpInstr .hl imm s, exec_ldRpInstr .sp imm s⟩

/-! The step on an opcode of the family: the byte after the opcode is the low half of the immediate (20_memory.md R61). -/

theorem step_ldRp {s : State} {r : Rp} (h : classifyPrimary (memRead s.mem s.pc) = .ldRpD16 r) :
    step s = .next (loadPair r (joinBytes (fetchAt 2 s) (fetchAt 1 s)) s) := by
  have hprefix : memRead s.mem s.pc ≠ 0xCB := fun hop => by
    have hclass : classifyPrimary 0xCB = .unassigned := by decide
    cases (hop ▸ h).symm.trans hclass
  rw [step_eq_exec_decodePrimary hprefix, decodePrimary, h]
  exact exec_ldRpInstr r _ s

/-- Settles O27: each opcode is classified as the load of its pair, and the halves of the immediate are the two bytes. -/
theorem stepOfLoadPairReadsTheImmediateBytes : Obligations.StepOfLoadPairReadsTheImmediateBytes := by
  unfold Obligations.StepOfLoadPairReadsTheImmediateBytes
  intro s
  refine ⟨fun hop => ?_, fun hop => ?_, fun hop => ?_⟩
  · have hclass : classifyPrimary 0x01 = .ldRpD16 .bc := by decide
    rw [step_ldRp (hop ▸ hclass), loadPair_bc_eq, hiByte_joinBytes, loByte_joinBytes, fetchAt, fetchAt]
  · have hclass : classifyPrimary 0x11 = .ldRpD16 .de := by decide
    rw [step_ldRp (hop ▸ hclass), loadPair_de_eq, hiByte_joinBytes, loByte_joinBytes, fetchAt, fetchAt]
  · have hclass : classifyPrimary 0x21 = .ldRpD16 .hl := by decide
    rw [step_ldRp (hop ▸ hclass), loadPair_hl_eq, hiByte_joinBytes, loByte_joinBytes, fetchAt, fetchAt]

end Sys2Proof.Machine
end

section
/-! LD r,d8 (42_ld_r_d8.md): the next state of each register, and the step that runs it. -/

namespace Sys2Proof.Machine

/-- The whole of what the family changes: the register, `PC` and the result (R130). -/
theorem loadHalf_eq (r : R8) (imm : Byte) (s : State) :
    loadHalf r imm s = { write8 r imm s with pc := s.pc + 2, report := some .ok } := by
  rw [loadHalf, complete, write8_pc]

/-- The load of a register as an instruction: `exec_ldRInstr`, with the next state field by field. -/
theorem exec_ldRInstr_eq (r : R8) (imm : Byte) (s : State) :
    exec (ldRInstr r imm) s = .next { write8 r imm s with pc := s.pc + 2, report := some .ok } := by
  rw [exec_ldRInstr, loadHalf_eq]

/-- Settles O17: each of the seven instructions is the load of its register, which is the one field written. -/
theorem loadHalfTakesItsImmediate : Obligations.LoadHalfTakesItsImmediate := by
  unfold Obligations.LoadHalfTakesItsImmediate
  intro imm s
  exact ⟨exec_ldRInstr_eq .b imm s, exec_ldRInstr_eq .c imm s, exec_ldRInstr_eq .d imm s, exec_ldRInstr_eq .e imm s,
    exec_ldRInstr_eq .h imm s, exec_ldRInstr_eq .l imm s, exec_ldRInstr_eq .a imm s⟩

/-! The step on an opcode of the family: the byte after the opcode is the immediate (20_memory.md R61). -/

theorem classifyPrimary_prefix : classifyPrimary 0xCB = .unassigned := by decide

/-- An opcode that the primary page assigns is not the prefix, and so is decoded on that page. -/
theorem step_eq_exec_decodePrimary_of_assigned {s : State} (h : classifyPrimary (memRead s.mem s.pc) ≠ .unassigned) :
    step s = exec (decodePrimary (memRead s.mem s.pc) (fetchAt 1 s) (fetchAt 2 s)) s :=
  step_eq_exec_decodePrimary fun hop => h (hop ▸ classifyPrimary_prefix)

theorem step_ldR {op : Byte} {r : R8} (hclass : classifyPrimary op = .ldRD8 r) {s : State}
    (hop : memRead s.mem s.pc = op) :
    step s = .next { write8 r (memRead s.mem (s.pc + 1)) s with pc := s.pc + 2, report := some .ok } := by
  subst hop
  have hassigned : classifyPrimary (memRead s.mem s.pc) ≠ .unassigned := by simp [hclass]
  rw [step_eq_exec_decodePrimary_of_assigned hassigned, decodePrimary, hclass]
  exact exec_ldRInstr_eq r (fetchAt 1 s) s

/-- Settles O29: each opcode is classified as the load of its register, from the byte after it. -/
theorem stepOfLoadHalfReadsTheImmediateByte : Obligations.StepOfLoadHalfReadsTheImmediateByte := by
  unfold Obligations.StepOfLoadHalfReadsTheImmediateByte
  intro s
  exact ⟨step_ldR (op := 0x06) (r := .b) (by decide), step_ldR (op := 0x0E) (r := .c) (by decide),
    step_ldR (op := 0x16) (r := .d) (by decide), step_ldR (op := 0x1E) (r := .e) (by decide),
    step_ldR (op := 0x26) (r := .h) (by decide), step_ldR (op := 0x2E) (r := .l) (by decide),
    step_ldR (op := 0x3E) (r := .a) (by decide)⟩

end Sys2Proof.Machine
end

section
/-! LD (HL+),A and LD (HL-),A (43_st_hl_postmod.md): the next state, the step that runs each, and the frame of the two. -/

namespace Sys2Proof.Machine

theorem exec_ldHliA (s : State) : exec .ldHliA s = .next (storePostModify 1 s) := rfl

theorem exec_ldHldA (s : State) : exec .ldHldA s = .next (storePostModify (-1) s) := rfl

theorem exists_eq_storePostModify_of_familyOf {i : Instr} {s t : State} (hi : familyOf i = .store)
    (ht : exec i s = .next t) : ∃ d, t = storePostModify d s := by
  obtain ⟨n, f, hop, rfl⟩ := exists_familyOp_of_exec hi ht
  cases hop with
  | store d => exact ⟨d, rfl⟩

/-- Settles O18: each of the two is the store with its adjustment of `HL`, of which 0xFFFF is minus one modulo 65536. -/
theorem storesWriteAThenAdjustHl : Obligations.StoresWriteAThenAdjustHl := by
  unfold Obligations.StoresWriteAThenAdjustHl
  intro s hs i k hi
  have hexec : exec i s = .next (storePostModify k s) := by
    rcases hi with ⟨rfl, rfl⟩ | ⟨rfl, rfl⟩
    · exact exec_ldHliA s
    · exact exec_ldHldA s
  exact ⟨_, hexec, memRead_storePostModify hs k, read16_hl_storePostModify k s, storePostModify_eq k s⟩

/-- Settles O23: whatever the adjustment, a store writes the byte at the old `HL`, and `H`, `L`, `PC` and the result. -/
theorem storesFrame : Obligations.StoresFrame := by
  unfold Obligations.StoresFrame
  intro i s t hs hi ht
  have hfamily : familyOf i = .store := by rcases hi with rfl | rfl <;> rfl
  obtain ⟨d, rfl⟩ := exists_eq_storePostModify_of_familyOf hfamily ht
  refine ⟨storePostModify_eq d s, ?_⟩
  rintro _ rfl x hx
  exact (memRead_storePostModify hs d x).trans (if_neg hx)

/-! The step on the two opcodes (30_encoding.md R85). -/

theorem step_ldHliA {s : State} (h : memRead s.mem s.pc = 0x22) : step s = .next (storePostModify 1 s) := by
  rw [step_eq_exec_decodePrimary (h ▸ by decide), h]
  exact exec_ldHliA s

theorem step_ldHldA {s : State} (h : memRead s.mem s.pc = 0x32) : step s = .next (storePostModify (-1) s) := by
  rw [step_eq_exec_decodePrimary (h ▸ by decide), h]
  exact exec_ldHldA s

/-- Settles O30: each opcode is decoded as its store, and the byte at `PC` is not both opcodes. -/
theorem stepOfStoresWritesAtHl : Obligations.StepOfStoresWritesAtHl := by
  unfold Obligations.StepOfStoresWritesAtHl
  intro s hs hop
  have hne : ¬(memRead s.mem s.pc = 0x22 ∧ memRead s.mem s.pc = 0x32) := fun ⟨h22, h32⟩ =>
    absurd (h22.symm.trans h32) (by decide)
  rcases hop with h22 | h32
  · exact ⟨_, step_ldHliA h22, memRead_storePostModify hs 1, fun _ => read16_hl_storePostModify 1 s,
      fun h32 => absurd ⟨h22, h32⟩ hne, storePostModify_eq 1 s⟩
  · have hhl : read16 .hl (storePostModify (-1) s) = read16 .hl s - 1 :=
      (read16_hl_storePostModify (-1) s).trans (BitVec.sub_eq_add_neg _ _).symm
    exact ⟨_, step_ldHldA h32, memRead_storePostModify hs (-1), fun h22 => absurd ⟨h22, h32⟩ hne, fun _ => hhl,
      storePostModify_eq (-1) s⟩

end Sys2Proof.Machine
end

section
/-! XOR r (44_xor.md): the next state, the step that runs it, and the frame of the seven; XOR A is the one whose result is
known beforehand. -/

namespace Sys2Proof.Machine

/-- The whole of what the family changes: `A`, the four flags, `PC` and the result (R150). -/
theorem xorWith_eq (r : R8) (s : State) :
    xorWith r s = { s with
      a := s.a ^^^ read8 r s, flags := ⟨decide (s.a ^^^ read8 r s = 0), false, false, false⟩,
      pc := s.pc + 1, report := some .ok } := rfl

@[simp] theorem xorWith_a (r : R8) (s : State) : (xorWith r s).a = s.a ^^^ read8 r s := rfl

theorem readF_xorWith (r : R8) (s : State) :
    readF (xorWith r s) = if s.a ^^^ read8 r s = 0 then 0x80 else 0x00 := by
  rw [readF, xorWith_flags, xorFlags_toByte]

theorem eq_xorWith_of_familyOf {i : Instr} {r : R8} {s t : State} (hr : familyOf i = .xor r)
    (ht : exec i s = .next t) : t = xorWith r s := by
  obtain ⟨n, f, hop, rfl⟩ := exists_familyOp_of_exec hr ht
  cases hop with
  | xor r => rfl

/-- Settles O24: an instruction of the family is its one operation, which writes `A`, the flags, `PC` and the result alone. -/
theorem xorFrame : Obligations.XorFrame := by
  unfold Obligations.XorFrame
  intro i r s t hr ht
  obtain rfl := eq_xorWith_of_familyOf hr ht
  exact ⟨xorWith_eq r s, fun x => by rw [xorWith_mem]⟩

/-- Settles O19: each of the seven instructions is the exclusive-or with its register. -/
theorem xorWritesAAndAllFourFlags : Obligations.XorWritesAAndAllFourFlags := by
  unfold Obligations.XorWritesAAndAllFourFlags
  intro s
  have hexec (r : R8) := (exec_xorInstr r s).trans (congrArg _ (xorWith_eq r s))
  exact ⟨hexec .b, hexec .c, hexec .d, hexec .e, hexec .h, hexec .l, hexec .a⟩

/-! The step on an opcode of the family (30_encoding.md R85). -/

theorem step_xorR {op : Byte} {r : R8} (hclass : classifyPrimary op = .xorR r) {s : State}
    (hop : memRead s.mem s.pc = op) : step s = .next (xorWith r s) := by
  subst hop
  have hassigned : classifyPrimary (memRead s.mem s.pc) ≠ .unassigned := by simp [hclass]
  rw [step_eq_exec_decodePrimary_of_assigned hassigned, decodePrimary, hclass]
  exact exec_xorInstr r s

/-- `step_xorR`, with `F` as a byte (R150) and the rest of the next state unchanged. -/
theorem step_xorR_readF {op : Byte} {r : R8} (hclass : classifyPrimary op = .xorR r) {s : State}
    (hop : memRead s.mem s.pc = op) :
    ∃ t, step s = .next t ∧ t.a = s.a ^^^ read8 r s ∧
      readF t = (if s.a ^^^ read8 r s = 0 then 0x80 else 0x00) ∧
      t = { s with a := t.a, flags := t.flags, pc := s.pc + 1, report := some .ok } :=
  ⟨_, step_xorR hclass hop, xorWith_a r s, readF_xorWith r s, xorWith_eq r s⟩

/-- Settles O31: each opcode is classified as the exclusive-or with its register. -/
theorem stepOfXorIsTheExclusiveOr : Obligations.StepOfXorIsTheExclusiveOr := by
  unfold Obligations.StepOfXorIsTheExclusiveOr
  intro s
  exact ⟨step_xorR_readF (op := 0xA8) (r := .b) (by decide), step_xorR_readF (op := 0xA9) (r := .c) (by decide),
    step_xorR_readF (op := 0xAA) (r := .d) (by decide), step_xorR_readF (op := 0xAB) (r := .e) (by decide),
    step_xorR_readF (op := 0xAC) (r := .h) (by decide), step_xorR_readF (op := 0xAD) (r := .l) (by decide)⟩

/-! XOR A: a byte exclusive-or itself is zero, so `A` and the flags are constants (R157). -/

theorem xorA_eq (s : State) :
    xorWith .a s = { s with
      a := 0, flags := ⟨true, false, false, false⟩, pc := s.pc + 1, report := some .ok } := by
  have hzero : s.a ^^^ read8 .a s = 0 := BitVec.xor_self
  rw [xorWith_eq, hzero]
  rfl

/-- A second XOR A finds the constants the first one wrote, and moves `PC` alone. -/
theorem xorA_xorA (s : State) :
    xorWith .a (xorWith .a s) = { xorWith .a s with pc := (xorWith .a s).pc + 1 } := by
  simp [xorA_eq]

/-- Settles O32: the next state holds the constants whatever `A` and `F` were, and so does the one after it. -/
theorem xorAAlwaysClearsAAndSetsZeroAlone : Obligations.XorAAlwaysClearsAAndSetsZeroAlone := by
  unfold Obligations.XorAAlwaysClearsAAndSetsZeroAlone
  refine ⟨fun s hop => ?_, fun s t ht => ?_⟩
  · have hpair : joinBytes 0 (flagsToByte ⟨true, false, false, false⟩) = 0x0080 := by decide
    have haf : read16 .af (xorWith .a s) = 0x0080 := by rwa [xorA_eq]
    exact ⟨_, step_xorA hop, haf, xorA_eq s⟩
  · obtain rfl := eq_xorWith_of_familyOf (i := .xorA) rfl ht
    exact (exec_xorInstr .a _).trans (congrArg _ (xorA_xorA s))

end Sys2Proof.Machine
end

section
/-! BIT b,r (45_bit.md): the next state, with `F` as a byte; the step that runs it; and the frame of the 56. -/

namespace Sys2Proof.Machine

/-- The whole of what the family changes: the four flags, `PC` and the result (R160). -/
theorem bitTest_eq (n : BitVec 3) (r : R8) (s : State) :
    bitTest n r s = { s with
      flags := ⟨decide ((read8 r s).getLsbD n.toNat = false), false, true, s.flags.c⟩,
      pc := s.pc + 2, report := some .ok } := by
  rw [Bool.decide_eq_false]
  rfl

/-! `F` as a byte (R160). -/

/-- The byte of R160 has its low four bits zero when its first part has, and then a write of `F` keeps all of it
(10_state.md R12). -/
theorem pseudoBit_and_0xF0 {t : Byte} (ht : t &&& 0xF0 = t) (f : Byte) :
    (t ||| 0x20 ||| (f &&& 0x10)) &&& 0xF0 = t ||| 0x20 ||| (f &&& 0x10) := by
  have hhalf : (0x20 : Byte) &&& 0xF0 = 0x20 := by decide
  have hcarry : (0x10 : Byte) &&& 0xF0 = 0x10 := by decide
  rw [BitVec.and_or_distrib_right, BitVec.and_or_distrib_right, ht, hhalf, BitVec.and_assoc, hcarry]

theorem readF_bitTest (n : BitVec 3) (r : R8) (s : State) :
    readF (bitTest n r s) = ((1 - (read8 r s >>> n.toNat &&& 1)) <<< 7) ||| 0x20 ||| (readF s &&& 0x10) := by
  have hshift : ∀ x : Byte, (x <<< 7 : Byte) &&& 0xF0 = x <<< 7 := by decide
  rw [readF, bitTest_flags, ← flagsOfByte_pseudoBit, flagsToByte_flagsOfByte, pseudoBit_and_0xF0 (hshift _), readF]

/-! The 56 instructions. -/

/-- Each listed instruction is the one its bit index and register select (R161 to R167). -/
theorem eq_bitInstr_of_mem_bitInstructions : ∀ e ∈ bitInstructions, e.1 = bitInstr e.2.1 e.2.2 := by decide

/-- Settles O20: each listed instruction is the bit test of its index and register, which writes `F`, `PC` and the result
alone. -/
theorem bitTestWritesTheFlagsAlone : Obligations.BitTestWritesTheFlagsAlone := by
  unfold Obligations.BitTestWritesTheFlagsAlone
  refine ⟨rfl, by decide, fun e he s => ?_⟩
  rw [eq_bitInstr_of_mem_bitInstructions e he]
  exact ⟨_, exec_bitInstr e.2.1 e.2.2 s, readF_bitTest e.2.1 e.2.2 s, rfl⟩

theorem exists_eq_bitTest_of_familyOf {i : Instr} {r : R8} {s t : State} (hr : familyOf i = .bitTest r)
    (ht : exec i s = .next t) : ∃ n, t = bitTest n r s := by
  obtain ⟨_, f, hop, rfl⟩ := exists_familyOp_of_exec hr ht
  cases hop with
  | bitTest n r => exact ⟨n, rfl⟩

/-- Settles O25: whatever the bit index, the family's operation writes the flags but C, `PC` and the result alone. -/
theorem bitTestFrame : Obligations.BitTestFrame := by
  unfold Obligations.BitTestFrame
  intro i r s t hr ht
  obtain ⟨n, rfl⟩ := exists_eq_bitTest_of_familyOf hr ht
  exact ⟨rfl, by rw [bitTest_flags, bitTestFlags], fun x => by rw [bitTest_mem]⟩

/-! The step on an opcode of the family, after the prefix (30_encoding.md R86, R87). -/

/-- An extended opcode 0x40 | (b << 3) | z is the test of bit `b` of the register with selector `z` (30_encoding.md R82). -/
theorem classifyExtended_bit : ∀ b : BitVec 3,
    ∀ e ∈ ([(0, .b), (1, .c), (2, .d), (3, .e), (4, .h), (5, .l), (7, .a)] : List (Byte × R8)),
      classifyExtended (0x40#8 ||| (BitVec.ofNat 8 b.toNat <<< 3) ||| e.1) = .bit b e.2 := by decide

theorem step_bit {s : State} {b : BitVec 3} {r : R8} (hprefix : memRead s.mem s.pc = 0xCB)
    (hclass : classifyExtended (memRead s.mem (s.pc + 1)) = .bit b r) : step s = .next (bitTest b r s) := by
  rw [step_eq_exec_decodeExtended hprefix, fetchAt, decodeExtended, hclass]
  exact exec_bitInstr b r s

/-- Settles O33: the two bytes are classified as the test of the named bit, whose next state is known field by field. -/
theorem stepOfBitTestsTheNamedBit : Obligations.StepOfBitTestsTheNamedBit := by
  unfold Obligations.StepOfBitTestsTheNamedBit
  intro s b z r hz hprefix hop
  have hclass : classifyExtended (memRead s.mem (s.pc + 1)) = .bit b r := hop ▸ classifyExtended_bit b (z, r) hz
  rw [← bitTest_eq]
  exact step_bit hprefix hclass

end Sys2Proof.Machine
end

section
/-! The report of an unassigned opcode (60_exceptions.md R171, R172, R176): its next state, the bytes at `PC` that cause it,
and that the core goes on after it (R178); then the run from a reset (70_reset_and_hazards.md R191, R196). -/

namespace Sys2Proof.Machine

/-! The next state of the two pages. -/

theorem reportUnimplemented_primary_eq (op : Byte) (s : State) :
    reportUnimplemented .primary op s =
      { s with pc := s.pc + 1, report := some (.unimplementedOpcode op s.pc .primary) } := rfl

theorem reportUnimplemented_extended_eq (op : Byte) (s : State) :
    reportUnimplemented .extended op s =
      { s with pc := s.pc + 2, report := some (.unimplementedOpcode op (s.pc + 1) .extended) } := by
  simp [reportUnimplemented, BitVec.add_assoc]

theorem exec_unimplPrimary (op : Byte) (s : State) :
    exec (.unimplPrimary op) s = .next (reportUnimplemented .primary op s) := rfl

theorem exec_unimplExtended (op : Byte) (s : State) :
    exec (.unimplExtended op) s = .next (reportUnimplemented .extended op s) := rfl

/-- Settles O21: each of the two is the report of its page. -/
theorem unimplementedOpcodeReportsItsByte : Obligations.UnimplementedOpcodeReportsItsByte := by
  unfold Obligations.UnimplementedOpcodeReportsItsByte
  intro op s
  rw [exec_unimplPrimary, exec_unimplExtended, reportUnimplemented_primary_eq, reportUnimplemented_extended_eq]
  exact ⟨rfl, rfl⟩

theorem page_eq_of_reportUnimplemented {p page : Page} {op byte : Byte} {addr : Word} {s : State}
    (h : (reportUnimplemented p op s).report = some (.unimplementedOpcode byte addr page)) : page = p := by
  cases h
  rfl

/-! The bytes at `PC`. -/

/-- The byte of the page with no assigned semantics that the memory holds at `pc` or, on the extended page, after the 0xCB
at `pc` (30_encoding.md R87, R89). `step_of_unassignedAt` and `exists_unassignedAt` tie it to the step. -/
inductive UnassignedAt (m : Memory) (pc : Word) : Page → Byte → Prop where
  | primary (hprefix : memRead m pc ≠ 0xCB) (hop : memRead m pc ∉ assignedPrimary) :
      UnassignedAt m pc .primary (memRead m pc)
  | extended (hprefix : memRead m pc = 0xCB) (hop : assignedExtended (memRead m (pc + 1)) = false) :
      UnassignedAt m pc .extended (memRead m (pc + 1))

theorem UnassignedAt.extended_iff {m : Memory} {pc : Word} {page : Page} {op : Byte} (h : UnassignedAt m pc page op) :
    page = .extended ↔ memRead m pc = 0xCB := by
  cases h with
  | primary hprefix _ => exact ⟨nofun, fun e => absurd e hprefix⟩
  | extended hprefix _ => exact ⟨fun _ => hprefix, fun _ => rfl⟩

/-- The opcode is found again in any memory that has the byte at `pc` and, on the extended page, the byte after it. -/
theorem UnassignedAt.congr {m m' : Memory} {pc : Word} {page : Page} {op : Byte} (h : UnassignedAt m pc page op)
    (hfirst : memRead m' pc = memRead m pc)
    (hsecond : page = .extended → memRead m' (pc + 1) = memRead m (pc + 1)) : UnassignedAt m' pc page op := by
  cases h with
  | primary hprefix hop => exact hfirst ▸ .primary (hfirst ▸ hprefix) (hfirst ▸ hop)
  | extended hprefix hop => exact hsecond rfl ▸ .extended (hfirst.trans hprefix) (hsecond rfl ▸ hop)

theorem step_of_unassignedAt {s : State} {page : Page} {op : Byte} (h : UnassignedAt s.mem s.pc page op) :
    step s = .next (reportUnimplemented page op s) := by
  cases h with
  | primary hprefix hop =>
    rw [step_eq_exec_decodePrimary hprefix, Laws.OpcodePages.decodePrimary_of_not_mem_assignedPrimary hop,
      exec_unimplPrimary]
  | extended hprefix hop =>
    rw [step_eq_exec_decodeExtended hprefix, fetchAt, Laws.OpcodePages.decodeExtended_of_assignedExtended_eq_false hop,
      exec_unimplExtended]

/-- An instruction of the unassigned family is fetched from an unassigned opcode alone. -/
theorem exists_unassignedAt {s : State} (h : familyOf (fetchInstr s) = .unassigned) :
    ∃ page op, UnassignedAt s.mem s.pc page op := by
  have hprimary : ∀ op : Byte, familyOf (decodePrimary op 0 0) = .unassigned → op ∉ assignedPrimary := by decide
  have hextended : ∀ op : Byte, familyOf (decodeExtended op) = .unassigned → assignedExtended op = false := by decide
  rw [fetchInstr, fetchAt_zero, decodeBytes] at h
  split at h
  · next hprefix => exact ⟨_, _, .extended hprefix (hextended _ h)⟩
  · next hprefix => exact ⟨_, _, .primary hprefix (hprimary _ (familyOf_decodePrimary _ _ _ ▸ h))⟩

/-- Settles O34: the listed values are those that the two pages assign. -/
theorem stepReportsEveryUnassignedOpcode : Obligations.StepReportsEveryUnassignedOpcode := by
  unfold Obligations.StepReportsEveryUnassignedOpcode
  intro s
  rw [← reportUnimplemented_primary_eq, ← reportUnimplemented_extended_eq]
  refine ⟨fun hprefix hop => step_of_unassignedAt (.primary hprefix hop), fun hprefix hop => ?_⟩
  have hfree : assignedExtended (memRead s.mem (s.pc + 1)) = false := by
    simp only [assignedExtended, Bool.and_eq_false_iff, decide_eq_false_iff_not]
    omega
  exact step_of_unassignedAt (.extended hprefix hfree)

/-! The step that reports. -/

/-- Of the two results of a step, the second is that of the unassigned family (R171). -/
theorem step_reports_unimplementedOpcode_iff {s t : State} (ht : step s = .next t) :
    (∃ byte addr page, t.report = some (.unimplementedOpcode byte addr page)) ↔
      familyOf (fetchInstr s) = .unassigned := by
  obtain ⟨t₁, ht₁, -, hok⟩ := everyInstructionCompletesPastItsBytes (fetchInstr s) s
  obtain ⟨t₂, ht₂, hresult⟩ := everyStepCompletes s
  obtain rfl : t₁ = t := Host.Outcome.next.inj (ht₁.symm.trans ht)
  obtain rfl : t₂ = t₁ := Host.Outcome.next.inj (ht₂.symm.trans ht)
  constructor
  · rintro ⟨byte, addr, page, hreport⟩
    by_contra hfamily
    exact absurd (hreport.symm.trans (hok.2 hfamily)) nofun
  · intro hfamily
    exact hresult.resolve_left fun h => hok.1 h hfamily

/-- Settles O26: such a step found an unassigned opcode at `PC`, and finds it again in every memory that has its bytes. -/
theorem unimplementedOpcodeChangesOnlyPc : Obligations.UnimplementedOpcodeChangesOnlyPc := by
  unfold Obligations.UnimplementedOpcodeChangesOnlyPc
  intro s t ht
  refine ⟨step_reports_unimplementedOpcode_iff ht, fun byte addr page hreport => ?_⟩
  obtain ⟨p, op, hat⟩ := exists_unassignedAt ((step_reports_unimplementedOpcode_iff ht).1 ⟨byte, addr, page, hreport⟩)
  obtain rfl : reportUnimplemented p op s = t := Host.Outcome.next.inj ((step_of_unassignedAt hat).symm.trans ht)
  obtain rfl : page = p := page_eq_of_reportUnimplemented hreport
  refine ⟨hat.extended_iff, ?_, fun m hfirst hsecond => ?_⟩
  · cases page with
    | primary => rw [reportUnimplemented_primary_eq]
    | extended => rw [reportUnimplemented_extended_eq]
  · exact step_of_unassignedAt (s := withMemory m s) (hat.congr hfirst hsecond)

/-! Runs, and the first step after a reset. -/

/-- Settles O45, by induction on the number of steps: each completes and keeps the invariant. -/
theorem theCoreNeverEndsARun : Obligations.TheCoreNeverEndsARun := by
  unfold Obligations.TheCoreNeverEndsARun
  intro k
  induction k with
  | zero => exact fun s hs => ⟨s, rfl, hs⟩
  | succ k ih =>
    intro s hs
    obtain ⟨t, ht, -⟩ := everyStepCompletes s
    rw [run_core_of_step k ht]
    exact ih t (stepKeepsMemoryCanonical s t hs ht)

/-- Settles O48: `PC` is zero after a reset, and the memory is the one before. -/
theorem firstStepAfterResetFetchesAtZero : Obligations.FirstStepAfterResetFetchesAtZero := by
  unfold Obligations.FirstStepAfterResetFetchesAtZero
  intro s
  have hpc := resetCore_pc s
  rw [step_eq, fetchInstr, fetchAt_eq_memRead hpc (a := 0) rfl, fetchAt_eq_memRead hpc (a := 1) rfl,
    fetchAt_eq_memRead hpc (a := 2) rfl, resetCore_mem]

end Sys2Proof.Machine
end
